-- ==== Sys2Proof/Word.lean ====
section
/-! DEFINITION. The word types of the block and their plainest arithmetic.
Rules: 00_scope.md R8 (XLEN, BUSW, WINDOW), R9 (bit numbering), R10 (zext). -/

namespace Sys2Proof

/-- One byte of a little-endian 32-byte value (R9). -/
abbrev Byte := BitVec 8

/-- One host data access, a command word, a control and status register: `BUSW = 32` bits (R8). -/
abbrev Word := BitVec 32

/-- A window offset, `0x000` to `0xFFF`: `WINDOW = 4096` bytes (R8, R60). -/
abbrev Offset := BitVec 12

/-- The contents of one operand register: `XLEN = 256` bits (R8, R31). -/
abbrev XWord := BitVec 256

/-- The index of an operand register, `x0` to `x7`: `NREG = 8` (R8, R82). Every value names a register. -/
abbrev Reg := Fin 8

/-- `zext_32` of a window offset, the `info` of an access error (R46). -/
def zext32 (off : Offset) : Word := off.setWidth 32

end Sys2Proof
end

