-- ==== Sys2Proof/Machine/State.lean ====
section
/-! DEFINITION. The state of the machine: the block's architectural and engine state (10_state.md R31 to R51)
and the host port, through which everything the host does reaches the block (R30; 20_memory.md R69).
Every field is plain data. The datapath's working storage is not architectural and has no field (R50). -/

namespace Sys2Proof.Machine

/-- The operand registers `x[0]` to `x[7]` (R31). -/
abbrev Regs := Vector XWord 8

/-- What `exec` returns and the engine holds until completion: destination writes in list order, and the step
count `n` (R49, R102). -/
structure Pending where
  writes : List (Reg × XWord)
  steps : Nat
deriving DecidableEq, Repr

/-- The engine (R49): `phase` is the constructor. While busy it holds `cur`, the accepted command word, the
`pending` results of the latched operands, and `remaining`, the number of engine steps left. -/
inductive Engine where
  | idle
  | busy (cur : Word) (pending : Pending) (remaining : Nat)
deriving DecidableEq, Repr

/-- The state of the block (R51). `STATUS.BUSY` equals the engine's phase (R49) and is stored there only. -/
structure Block where
  /-- `x[0]` to `x[7]` (R31). -/
  x : Regs
  /-- `CMD_LAST`, the last accepted command word (R38). -/
  cmdLast : Word
  /-- `STATUS.DONE` (R40). -/
  done : Bool
  /-- `STATUS.ERR` (R41). -/
  err : Bool
  /-- `STATUS.DROPPED` (R42). -/
  dropped : Bool
  /-- `STATUS.ERRCODE` (R43). -/
  errCode : BitVec 4
  /-- `ERRINFO` (R46). -/
  errInfo : Word
  /-- `INTEN.DONE_IE` (R45). -/
  doneIE : Bool
  /-- `INTEN.ERR_IE` (R45). -/
  errIE : Bool
  /-- `STEPS` (R47). -/
  steps : Word
  /-- `phase`, `cur`, `pending`, `remaining` (R49). -/
  engine : Engine
deriving DecidableEq, Repr

/-- One host access of `n` bytes: `MemRead(off, n)` or `MemWrite(off, n, v)` (R10, R75). -/
inductive Access where
  | read (n : Nat)
  | write (n : Nat) (v : BitVec (8 * n))
deriving DecidableEq, Repr

/-- The events that change the block's state, in their one total order (R30, R69). -/
inductive Event where
  /-- a host access at a window offset -/
  | window (off : Offset) (a : Access)
  /-- a host access at a host address, `BASE + off` for the offset `off` (R60, R75) -/
  | host (addr : Nat) (a : Access)
  /-- the engine's turn to take one step (R103) -/
  | engine
  /-- the engine takes all its remaining steps, the last of them the completion (R69, R103) -/
  | completion
  /-- the reset input is asserted (R230) -/
  | reset
deriving DecidableEq, Repr

/-- The machine: the block, the events still to come (the first of the list comes first), and the data the
last host read returned. The last two are the model's own fields: the host's side of the port. -/
structure State where
  block : Block
  inputs : List Event
  readData : Option Word
deriving DecidableEq, Repr

/-- Why the machine could stop with a fault: it never does. Every event has an effect by the spec, and an error
of the spec is recorded in `STATUS` (R200), never a stop: "No item of this block is `stuck`"
(93_implementation_defined.md). -/
inductive Fault where
deriving DecidableEq, Repr

/-- Why a command could have no meaning. -/
inductive Refusal where
  /-- An arm of `exec` whose command is not modelled yet. No arm raises it in this model. Safe: a machine that
  stops proves nothing of what the hardware does next. -/
  | notModelled (mnemonic : String)
deriving DecidableEq, Repr

/-- Every piece of the block's state after reset (R51, R230). -/
def Block.reset : Block where
  x := Vector.replicate 8 0
  cmdLast := 0
  done := false
  err := false
  dropped := false
  errCode := 0
  errInfo := 0
  doneIE := false
  errIE := false
  steps := 0
  engine := .idle

/-- The machine right after reset, with no host event waiting and no data returned yet. -/
def State.reset : State where
  block := Block.reset
  inputs := []
  readData := none

end Sys2Proof.Machine
end

