-- ==== Sys2Proof/Machine/Operands.lean ====
section
/-! DEFINITION. Reading and writing the operand registers: whole (R31, R103), by window word (R64) and by
byte (R9, R63). -/

namespace Sys2Proof.Machine

/-- Read operand register `i` (R10). -/
def readX (x : Regs) (i : Reg) : XWord := x[i.val]

/-- Write operand register `i`: no register is hardwired (R31). -/
def writeX (x : Regs) (i : Reg) (v : XWord) : Regs := x.set i.val v

/-- The destination writes of a command, in list order (R103). -/
def commitWrites : List (Reg × XWord) → Regs → Regs
  | [], x => x
  | (i, v) :: ws, x => commitWrites ws (writeX x i v)

/-- Word `j` of a 256-bit value: `w[32j+31 : 32j]` (R64). -/
def wordOf (w : XWord) (j : Fin 8) : Word := w.extractLsb' (32 * j.val) 32

/-- `w` with bits `[32j+31 : 32j]` replaced by `v` (R64). -/
def setWord (w : XWord) (j : Fin 8) (v : Word) : XWord :=
  (w &&& ~~~((0xFFFFFFFF : XWord) <<< (32 * j.val))) ||| (v.setWidth 256 <<< (32 * j.val))

/-- Byte `i` of a 256-bit value: `w[8i+7 : 8i]` (R9). -/
def byteOf (w : XWord) (i : Fin 32) : Byte := w.extractLsb' (8 * i.val) 8

/-- The integer a little-endian byte string encodes, its first byte the least significant (R63). -/
def leNat : List Byte → Nat
  | [] => 0
  | b :: bs => b.toNat + 256 * leNat bs

/-- The 256-bit value of a little-endian string of 32 bytes (R63). -/
def xwordOfBytes (bs : List Byte) : XWord := BitVec.ofNat 256 (leNat bs)

/-- The 32 bytes of a 256-bit value, byte 0 first (R63). -/
def bytesOf (w : XWord) : List Byte := (List.finRange 32).map (byteOf w)

/-- Whether an offset lies in the operand window, `0x100` to `0x1FF` (R61). -/
def isOperandOffset (off : Offset) : Bool := decide (0x100 ≤ off.toNat ∧ off.toNat ≤ 0x1FF)

/-- The register `i` of an operand offset `0x100 + 32*i + 4*j` (R64). -/
def operandReg (off : Offset) : Reg := (off.extractLsb' 5 3).toFin

/-- The word `j` of an operand offset `0x100 + 32*i + 4*j` (R64). -/
def operandWord (off : Offset) : Fin 8 := (off.extractLsb' 2 3).toFin

/-- The offset of word `j` of `x[i]` (R32, R64). -/
def operandOffset (i : Reg) (j : Fin 8) : Offset := BitVec.ofNat 12 (0x100 + 32 * i.val + 4 * j.val)

end Sys2Proof.Machine
end

