-- ==== Sys2Proof/Machine/Field.lean ====
section
/-! DEFINITION. Field values at the interface: GF(p), `val`, `canon`, `enc` and the inverse by Fermat
(41_field_arithmetic.md R120 to R124, R134). Results are exact: integers, reduced by `canon` at the end. -/

namespace Sys2Proof.Machine

/-- `p = 2^255 - 19` (R120). -/
def prime : Nat := 2 ^ 255 - 19

/-- `val(w) = w[254:0]`: `unpack` masks bit 255, and a value of at least `p` is accepted (R121). -/
def val (w : XWord) : Nat := (w.extractLsb' 0 255).toNat

/-- `canon(v) = v mod p`, in `[0, p)` also for negative `v` (R122). -/
def canon (v : Int) : Nat := (v % (prime : Int)).toNat

/-- `enc(u)`, the 256-bit word holding the integer `u` (R122). -/
def enc (u : Nat) : XWord := BitVec.ofNat 256 u

/-- The exponent bits the reference chain of R134 multiplies for, bit 253 first: all of bits 253 to 0 of
`p - 2 = 2^255 - 21` but 4 and 2. -/
def fermatBits : List Bool := (List.range 254).reverse.map fun i => decide (i ≠ 2 ∧ i ≠ 4)

/-- `a^(p-2) mod p`, left to right: square for each bit, multiply where the bit is 1 (R134). It is 0 for
`a = 0` (R124). -/
def fermatInverse (a : Nat) : Nat :=
  fermatBits.foldl (fun c bit => if bit then c * c % prime * a % prime else c * c % prime) (a % prime)

end Sys2Proof.Machine
end

