-- ==== Sys2Proof/Config.lean ====
section
/-! DEFINITION. The parameters the spec leaves open (00_scope.md R8; 93_implementation_defined.md I10, I12).
An open parameter is a constant with no body: nothing can be proved of its value.
`BUS_PROTOCOL` and `RESET_KIND` cannot be seen at the transaction level and have no constant (R7, R231). -/

namespace Sys2Proof

/-- The seven opcodes of the command set (R84). `LAT` is a function of the opcode only (R105). -/
inductive Opcode where
  | nop | fmul | fred | cswap | clamp | ladder | smul
deriving DecidableEq, Repr

/-- `BASE`, the host address of the window: open (R8, R60). Assumption 1. -/
opaque Config.base : Nat

/-- How many engine steps a command takes beyond the first: open (R105). Assumption 2. -/
opaque Config.latBeyondOne : Opcode → Nat

/-- `LAT(op)`: the engine steps from acceptance to completion, at least 1, a function of the opcode only
(R8, R105, R241). -/
def Config.lat (op : Opcode) : Nat := Config.latBeyondOne op + 1

/-- `WINDOW`, the size of the host register window in bytes (R8, R60). -/
def Config.window : Nat := 4096

end Sys2Proof
end

