-- ==== Sys2Proof/Syntax.lean ====
section
/-! DEFINITION. The commands of `GF25519-CMD` v1, one constructor per row of spec/opcode_table.json
(30_encoding.md R84, R85). A constructor's arguments are the fields its row uses, in the order
`RD`, `RS1`, `RS2`, `RS3`, `IMM8`. -/

namespace Sys2Proof

inductive Instr where
  /-- `nop` (R107). -/
  | nop
  /-- `fmul xd, xa, xb` (R140): `rd = d`, `rs1 = a`, `rs2 = b`. -/
  | fmul (rd rs1 rs2 : Reg)
  /-- `fred xd, xa` (R141): `rd = d`, `rs1 = a`. -/
  | fred (rd rs1 : Reg)
  /-- `cswap xa, xb, xc, k` (R142): `rd = a`, `rs1 = b`, `rs2 = c`, bit index `k`. -/
  | cswap (rd rs1 rs2 : Reg) (k : BitVec 8)
  /-- `clamp xd, xs` (R181): `rd = d`, `rs1 = s`. -/
  | clamp (rd rs1 : Reg)
  /-- `ladder xd, xe, xs, xu` (R164): `rd = d` (X), `rs1 = s` (scalar), `rs2 = u`, `rs3 = e` (Z). -/
  | ladder (rd rs1 rs2 rs3 : Reg)
  /-- `smul xd, xs, xu` (R165): `rd = d`, `rs1 = s` (scalar), `rs2 = u`. -/
  | smul (rd rs1 rs2 : Reg)
deriving DecidableEq, Repr

end Sys2Proof
end

