-- ==== Sys2Proof/WellFormed.lean ====
section
/-! DEFINITION. Which commands are well-formed: the one condition beyond the fields' widths is that the two
destinations of `LADDER` differ (30_encoding.md R85; 60_exceptions.md R207). -/

namespace Sys2Proof

def Instr.wellFormed : Instr → Bool
  | .nop => true
  | .fmul _ _ _ => true
  | .fred _ _ => true
  | .cswap _ _ _ _ => true
  | .clamp _ _ => true
  | .ladder rd _ _ rs3 => decide (rd ≠ rs3)
  | .smul _ _ _ => true

end Sys2Proof
end

