-- ==== Sys2Proof/Decode.lean ====
section
/-! DEFINITION. Decoding a 32-bit command word and encoding a command: 30_encoding.md R80 to R88.
Decoding is total: every word is a command or is rejected under the name of an error code (R86). -/

namespace Sys2Proof

/-- The error codes 1 to 6 (60_exceptions.md R201). Code 0 (`NONE`) is the absence of an error, and the
codes 7 to 15 are never produced. -/
inductive ErrorCode where
  /-- `CMD` write with `OP` in 0x7 to 0xF (R203). -/
  | illegalOpcode
  /-- `CMD` write with a legal `OP` and a non-zero reserved bit or unused field (R204). -/
  | reservedField
  /-- `CMD` write while `BUSY = 1` (R205). -/
  | cmdBusy
  /-- operand-window write while `BUSY = 1` (R206). -/
  | operandBusy
  /-- `LADDER` with `RD = RS3` (R207). -/
  | operandConflict
  /-- access with size not 4 or offset not a multiple of 4 (R208). -/
  | busAccess
deriving DecidableEq, Repr

/-- The `OP` value of each opcode (R84). -/
def Opcode.code : Opcode → BitVec 4
  | .nop => 0x0 | .fmul => 0x1 | .fred => 0x2 | .cswap => 0x3 | .clamp => 0x4 | .ladder => 0x5 | .smul => 0x6

/-- `match` of each opcode (R85). -/
def Opcode.matchWord : Opcode → Word
  | .nop => 0x00000000 | .fmul => 0x00000001 | .fred => 0x00000002 | .cswap => 0x00000003
  | .clamp => 0x00000004 | .ladder => 0x00000005 | .smul => 0x00000006

/-- `mask` of each opcode: the bits that are fixed, the reserved bits and the unused fields (R85). -/
def Opcode.maskWord : Opcode → Word
  | .nop => 0xFFFFFFFF | .fmul => 0xFFF888FF | .fred => 0xFFFF88FF | .cswap => 0x00F888FF
  | .clamp => 0xFFFF88FF | .ladder => 0xFF8888FF | .smul => 0xFFF888FF

/-- The opcode map; 0x7 to 0xF name none (R84). -/
def opcodeOf? (c : BitVec 4) : Option Opcode :=
  if c = 0x0 then some .nop
  else if c = 0x1 then some .fmul
  else if c = 0x2 then some .fred
  else if c = 0x3 then some .cswap
  else if c = 0x4 then some .clamp
  else if c = 0x5 then some .ladder
  else if c = 0x6 then some .smul
  else none

/-! The fields of format `C` (R81). -/

/-- `OP = w[3:0]`. -/
def opField (w : Word) : BitVec 4 := w.extractLsb' 0 4
/-- `RD = w[10:8]`. -/
def rdField (w : Word) : Reg := (w.extractLsb' 8 3).toFin
/-- `RS1 = w[14:12]`. -/
def rs1Field (w : Word) : Reg := (w.extractLsb' 12 3).toFin
/-- `RS2 = w[18:16]`. -/
def rs2Field (w : Word) : Reg := (w.extractLsb' 16 3).toFin
/-- `RS3 = w[22:20]`. -/
def rs3Field (w : Word) : Reg := (w.extractLsb' 20 3).toFin
/-- `IMM8 = w[31:24]`, unsigned, never extended or shifted (R83). -/
def imm8Field (w : Word) : BitVec 8 := w.extractLsb' 24 8

/-- The command whose opcode is `op` and whose fields are those of `w` (R86). -/
def commandOf (op : Opcode) (w : Word) : Instr :=
  match op with
  | .nop => .nop
  | .fmul => .fmul (rdField w) (rs1Field w) (rs2Field w)
  | .fred => .fred (rdField w) (rs1Field w)
  | .cswap => .cswap (rdField w) (rs1Field w) (rs2Field w) (imm8Field w)
  | .clamp => .clamp (rdField w) (rs1Field w)
  | .ladder => .ladder (rdField w) (rs1Field w) (rs2Field w) (rs3Field w)
  | .smul => .smul (rdField w) (rs1Field w) (rs2Field w)

/-- What a command word decodes to (R86). -/
inductive Decoded where
  | command (i : Instr)
  | reject (code : ErrorCode)
deriving DecidableEq, Repr

/-- `decode(w)`: the checks in the order of R86, and the first that fails gives the code. -/
def decodeWord (w : Word) : Decoded :=
  match opcodeOf? (opField w) with
  | none => .reject .illegalOpcode
  | some op =>
    if w &&& op.maskWord ≠ op.matchWord then .reject .reservedField
    else if op = .ladder ∧ rdField w = rs3Field w then .reject .operandConflict
    else .command (commandOf op w)

/-- A register index as its 3-bit field (R82). -/
def regBits (r : Reg) : BitVec 3 := BitVec.ofNat 3 r.val

/-- Format `C` assembled from its fields, every reserved bit 0 (R81). -/
def formatC (op : BitVec 4) (rd rs1 rs2 rs3 : Reg) (imm8 : BitVec 8) : Word :=
  op.setWidth 32 ||| (regBits rd).setWidth 32 <<< 8 ||| (regBits rs1).setWidth 32 <<< 12
    ||| (regBits rs2).setWidth 32 <<< 16 ||| (regBits rs3).setWidth 32 <<< 20 ||| imm8.setWidth 32 <<< 24

/-- The opcode of a command (R84). -/
def Instr.opcode : Instr → Opcode
  | .nop => .nop
  | .fmul _ _ _ => .fmul
  | .fred _ _ => .fred
  | .cswap _ _ _ _ => .cswap
  | .clamp _ _ => .clamp
  | .ladder _ _ _ _ => .ladder
  | .smul _ _ _ => .smul

/-- The command word of a command: unused fields are 0 (R81, R85). -/
def encode : Instr → Word
  | .nop => formatC Opcode.nop.code 0 0 0 0 0
  | .fmul rd rs1 rs2 => formatC Opcode.fmul.code rd rs1 rs2 0 0
  | .fred rd rs1 => formatC Opcode.fred.code rd rs1 0 0 0
  | .cswap rd rs1 rs2 k => formatC Opcode.cswap.code rd rs1 rs2 0 k
  | .clamp rd rs1 => formatC Opcode.clamp.code rd rs1 0 0 0
  | .ladder rd rs1 rs2 rs3 => formatC Opcode.ladder.code rd rs1 rs2 rs3 0
  | .smul rd rs1 rs2 => formatC Opcode.smul.code rd rs1 rs2 0 0

/-- The command an opcode-table word of `nbits` bits decodes to; the bits above `nbits` are 0. Every
command is one 32-bit word (R80), so a longer word with a bit set above bit 31 is no command. -/
def decodeTableWord (nbits w : Nat) : Option Instr :=
  let v := w % 2 ^ nbits
  if v < 2 ^ 32 then
    match decodeWord (BitVec.ofNat 32 v) with
    | .command i => some i
    | .reject _ => none
  else none

end Sys2Proof
end

