-- ==== Sys2Proof/Machine/Flags.lean ====
section
/-! DEFINITION. The status bits: `STATUS`, `INTEN`, `ERRINFO` and the `irq` output (10_state.md R36 to R48).
No command reads a flag, and none is set by arithmetic (R36). -/

namespace Sys2Proof.Machine

/-- The code of an error (R201). -/
def errorBits : ErrorCode → BitVec 4
  | .illegalOpcode => 1
  | .reservedField => 2
  | .cmdBusy => 3
  | .operandBusy => 4
  | .operandConflict => 5
  | .busAccess => 6

/-- `STATUS.BUSY`, which equals the engine's phase (R39, R49). -/
def Block.busy (b : Block) : Bool :=
  match b.engine with
  | .idle => false
  | .busy _ _ _ => true

/-- A flag as a 32-bit value, 0 or 1. -/
def flagWord (f : Bool) : Word := if f then 1 else 0

/-- What a read of `STATUS` returns (R44). -/
def statusWord (b : Block) : Word :=
  flagWord b.busy ||| (flagWord b.done <<< 1) ||| (flagWord b.err <<< 2) ||| (flagWord b.dropped <<< 3)
    ||| (b.errCode.setWidth 32 <<< 8)

/-- What a read of `INTEN` returns: bits 31:2 read 0 (R45). -/
def intenWord (b : Block) : Word := flagWord b.doneIE ||| (flagWord b.errIE <<< 1)

/-- Clear the error record, which is the return from an error: `ERR`, `ERRCODE` and `ERRINFO` (R41, R218). -/
def clearError (b : Block) : Block := { b with err := false, errCode := 0, errInfo := 0 }

/-- A write of `STATUS`: bits 1 to 3 are write-1-to-clear, whether or not the engine is busy (R44). -/
def writeStatus (v : Word) (b : Block) : Block :=
  let b := if v.getLsbD 1 then { b with done := false } else b
  let b := if v.getLsbD 2 then clearError b else b
  if v.getLsbD 3 then { b with dropped := false } else b

/-- A write of `INTEN`: `DONE_IE <- v[0]`, `ERR_IE <- v[1]` (R45). -/
def writeInten (v : Word) (b : Block) : Block :=
  { b with doneIE := v.getLsbD 0, errIE := v.getLsbD 1 }

/-- The level interrupt output, a function of the state at every instant (R48). -/
def irq (b : Block) : Bool := (b.done && b.doneIE) || (b.err && b.errIE)

end Sys2Proof.Machine
end

