-- ==== Sys2Proof/Machine/Ops.lean ====
section
/-! DEFINITION. The operations every command and every host access share: recording an error and returning from
one (60_exceptions.md R202, R209, R218), issue, acceptance, engine steps and completion
(40_command_execution.md R100 to R106), and the register window (20_memory.md R61 to R66). -/

namespace Sys2Proof.Machine

/-! ## Errors -/

/-- `raise Error(code, info)`, the block's one way of taking an exception: the first error is recorded, a later
one only sets `DROPPED`. Nothing else is saved or changed (R202, R217). `clearError` is the return. -/
def raiseError (code : ErrorCode) (info : Word) (b : Block) : Block :=
  if b.err then { b with dropped := true }
  else { b with err := true, errCode := errorBits code, errInfo := info }

/-- A command word written while `ERR = 1` is dropped (R209). -/
def dropCommand (b : Block) : Block := { b with dropped := true }

/-! ## The life of a command -/

/-- Acceptance of the command word `w` of opcode `op`, whose operands were read in this same step (R101). -/
def accept (w : Word) (op : Opcode) (pending : Pending) (b : Block) : Block :=
  { b with cmdLast := w, done := false, engine := .busy w pending (Config.lat op) }

/-- Completion: every destination register, `STEPS`, `BUSY` and `DONE` in one event (R103). -/
def complete (pending : Pending) (b : Block) : Block :=
  { b with x := commitWrites pending.writes b.x, steps := BitVec.ofNat 32 pending.steps, done := true,
           engine := .idle }

/-- One engine step: it decrements `remaining`, and the step that brings it to 0 is the completion (R103).
An idle engine does nothing (R225). -/
def engineStep (b : Block) : Block :=
  match b.engine with
  | .idle => b
  | .busy cur pending remaining =>
    if remaining - 1 = 0 then complete pending b
    else { b with engine := .busy cur pending (remaining - 1) }

/-- The completion of a command in flight as one event of the total order (R69, R103): its remaining engine steps
with nothing between them, so the result does not depend on how many they are (R241). -/
def finishCommand (b : Block) : Block :=
  match b.engine with
  | .idle => b
  | .busy _ pending _ => complete pending b

/-- Steps 2 and 3 of R213, which come before the command word is decoded: dropped while `ERR = 1` (R209),
`CMD_BUSY` while `BUSY = 1` (R205); `passed` is the block after the later steps. -/
def issueChecks (w : Word) (b : Block) (passed : Block) : Block :=
  if b.err then dropCommand b
  else if b.busy then raiseError .cmdBusy w b
  else passed

/-- A command word that steps 4 to 6 of R213 reject, under the code they give. -/
def rejectWord (code : ErrorCode) (w : Word) (s : State) : State :=
  { s with block := issueChecks w s.block (raiseError code w s.block) }

/-- The issue of the command `i` with results `pending`: R213 steps 2 and 3, then step 7, acceptance. -/
def issueCommand (i : Instr) (pending : Pending) (s : State) : State :=
  { s with block := issueChecks (encode i) s.block (accept (encode i) i.opcode pending s.block) }

/-! ## The register window -/

/-- Whether the block performs an access of `n` bytes at `off`: only 4 bytes at a multiple of 4 (R66). -/
def performed (off : Offset) (n : Nat) : Bool := decide (n = 4 ∧ off.toNat % 4 = 0)

/-- What a performed read of `off` returns; a reserved offset reads 0 (R61, R62, R64, R65). -/
def windowWord (off : Offset) (b : Block) : Word :=
  if off = 0x000 then b.cmdLast
  else if off = 0x004 then statusWord b
  else if off = 0x008 then intenWord b
  else if off = 0x00C then b.errInfo
  else if off = 0x010 then b.steps
  else if isOperandOffset off then wordOf (readX b.x (operandReg off)) (operandWord off)
  else 0

/-- A performed write of the operand window: discarded with `OPERAND_BUSY` while busy (R64, R206). -/
def writeOperand (off : Offset) (v : Word) (b : Block) : Block :=
  if b.busy then raiseError .operandBusy (zext32 off) b
  else
    let i := operandReg off
    { b with x := writeX b.x i (setWord (readX b.x i) (operandWord off) v) }

/-- A performed write at any offset but `CMD`: the read-only registers and the reserved offsets ignore it
(R37, R62, R68). -/
def writeRegister (off : Offset) (v : Word) (b : Block) : Block :=
  if off = 0x004 then writeStatus v b
  else if off = 0x008 then writeInten v b
  else if isOperandOffset off then writeOperand off v b
  else b

end Sys2Proof.Machine
end

