-- ==== Sys2Proof/Machine/FieldCommands.lean ====
section
/-! DEFINITION. `FMUL`, `FRED` and `CSWAP` (41_field_arithmetic.md R140 to R142). -/

namespace Sys2Proof.Machine

/-- `exec(FMUL, srcs)`: the canonical product (R140). -/
def effectFmul (rd rs1 rs2 : Reg) (srcs : Regs) : Pending :=
  { writes := [(rd, enc (canon ((val (readX srcs rs1) : Int) * (val (readX srcs rs2) : Int))))], steps := 0 }

/-- `fmul xd, xa, xb`. -/
def execFmul (rd rs1 rs2 : Reg) (s : State) : Host.Outcome State Fault Refusal :=
  .next (issueCommand (.fmul rd rs1 rs2) (effectFmul rd rs1 rs2 s.block.x) s)

/-- `exec(FRED, srcs)`: the canonical encoding (R141). -/
def effectFred (rd rs1 : Reg) (srcs : Regs) : Pending :=
  { writes := [(rd, enc (canon (val (readX srcs rs1) : Int)))], steps := 0 }

/-- `fred xd, xa`. -/
def execFred (rd rs1 : Reg) (s : State) : Host.Outcome State Fault Refusal :=
  .next (issueCommand (.fred rd rs1) (effectFred rd rs1 s.block.x) s)

/-- `(0 - bit) mod 2^256`: all ones iff the bit is 1 (R142). -/
def swapMask (bit : Bool) : XWord := 0 - (if bit then 1 else 0)

/-- `exec(CSWAP, srcs)`: the masked exchange of two raw words (R142). -/
def effectCswap (rd rs1 rs2 : Reg) (k : BitVec 8) (srcs : Regs) : Pending :=
  let a := readX srcs rd
  let b := readX srcs rs1
  let bit := (readX srcs rs2).getLsbD k.toNat
  let t := swapMask bit &&& (a ^^^ b)
  { writes := [(rd, a ^^^ t), (rs1, b ^^^ t)], steps := 0 }

/-- `cswap xa, xb, xc, k`. -/
def execCswap (rd rs1 rs2 : Reg) (k : BitVec 8) (s : State) : Host.Outcome State Fault Refusal :=
  .next (issueCommand (.cswap rd rs1 rs2 k) (effectCswap rd rs1 rs2 k s.block.x) s)

end Sys2Proof.Machine
end

