-- ==== Sys2Proof/Machine/KeyClamp.lean ====
section
/-! DEFINITION. Clamping and `CLAMP` (43_key_clamp.md R180, R181). -/

namespace Sys2Proof.Machine

/-- `clamp(w) = (w & ~(2^255 | 7)) | 2^254` at 256 bits (R180). -/
def clamp (w : XWord) : XWord :=
  (w &&& ~~~(BitVec.ofNat 256 (2 ^ 255) ||| 7)) ||| BitVec.ofNat 256 (2 ^ 254)

/-- `exec(CLAMP, srcs)` (R181). -/
def effectClamp (rd rs1 : Reg) (srcs : Regs) : Pending :=
  { writes := [(rd, clamp (readX srcs rs1))], steps := 0 }

/-- `clamp xd, xs`. -/
def execClamp (rd rs1 : Reg) (s : State) : Host.Outcome State Fault Refusal :=
  .next (issueCommand (.clamp rd rs1) (effectClamp rd rs1 s.block.x) s)

end Sys2Proof.Machine
end

