-- ==== Sys2Proof/Machine/Ladder.lean ====
section
/-! DEFINITION. The Montgomery ladder, `LADDER` and `SMUL` (42_montgomery_ladder.md R160 to R165). -/

namespace Sys2Proof.Machine

/-- The running pairs of the ladder and its `swap` flag (R160). -/
structure LadderState where
  x2 : Int
  z2 : Int
  x3 : Int
  z3 : Int
  swap : Bool
deriving DecidableEq, Repr

/-- Exchange the two running pairs when `bit = 1` (R160). -/
def swapPairs (bit : Bool) (st : LadderState) : LadderState :=
  if bit then { st with x2 := st.x3, z2 := st.z3, x3 := st.x2, z3 := st.z2 } else st

/-- One differential addition and doubling on exact integers, the stored values taken mod p; the flag is kept
(R160, C3). -/
def ladderArith (x1 : Int) (st : LadderState) : LadderState :=
  let A := st.x2 + st.z2
  let AA := A * A
  let B := st.x2 - st.z2
  let BB := B * B
  let E := AA - BB
  let C := st.x3 + st.z3
  let D := st.x3 - st.z3
  let DA := D * A
  let CB := C * B
  { x2 := AA * BB % prime
    z2 := E * (AA + 121665 * E) % prime
    x3 := (DA + CB) * (DA + CB) % prime
    z3 := x1 * (DA - CB) * (DA - CB) % prime
    swap := st.swap }

/-- One iteration of the loop for the scalar bit `kt` (R160). -/
def ladderIteration (x1 : Int) (kt : Bool) (st : LadderState) : LadderState :=
  { ladderArith x1 (swapPairs (st.swap ^^ kt) st) with swap := kt }

/-- The iterations for the bits `n - 1` down to 0 of the scalar `s`; none is left out (R160, R161). -/
def ladderLoop (x1 : Int) (s : XWord) : Nat → LadderState → LadderState
  | 0, st => st
  | t + 1, st => ladderLoop x1 s t (ladderIteration x1 (s.getLsbD t) st)

/-- The state before the loop: pair 2 is the identity, pair 3 the input point (R160, C3). -/
def ladderInit (x1 : Int) : LadderState := { x2 := 1, z2 := 0, x3 := x1, z3 := 1, swap := false }

/-- `ladder(s, u)`: bits 254 to 0 of `s` as given, `u` through `val`; the residues `(X, Z)` (R160 to R162). -/
def ladder (s u : XWord) : Nat × Nat :=
  let x1 : Int := val u % prime
  let st := ladderLoop x1 s 255 (ladderInit x1)
  let st := swapPairs st.swap st
  (canon st.x2, canon st.z2)

/-- `exec(LADDER, srcs)` (R164). -/
def effectLadder (rd rs1 rs2 rs3 : Reg) (srcs : Regs) : Pending :=
  let r := ladder (readX srcs rs1) (readX srcs rs2)
  { writes := [(rd, enc r.1), (rs3, enc r.2)], steps := 255 }

/-- `ladder xd, xe, xs, xu`. With `RD = RS3` the command is rejected with `OPERAND_CONFLICT` (R207). -/
def execLadder (rd rs1 rs2 rs3 : Reg) (s : State) : Host.Outcome State Fault Refusal :=
  if rd = rs3 then .next (rejectWord .operandConflict (encode (.ladder rd rs1 rs2 rs3)) s)
  else .next (issueCommand (.ladder rd rs1 rs2 rs3) (effectLadder rd rs1 rs2 rs3 s.block.x) s)

/-- The X25519 function of a scalar and a u-coordinate, clamping a copy of the scalar: `X * Z^(p-2)` (R165). -/
def scalarMultiply (s u : XWord) : Nat :=
  let r := ladder (clamp s) u
  canon ((r.1 : Int) * (fermatInverse r.2 : Int))

/-- `exec(SMUL, srcs)` (R165). -/
def effectSmul (rd rs1 rs2 : Reg) (srcs : Regs) : Pending :=
  { writes := [(rd, enc (scalarMultiply (readX srcs rs1) (readX srcs rs2)))], steps := 255 }

/-- `smul xd, xs, xu`. -/
def execSmul (rd rs1 rs2 : Reg) (s : State) : Host.Outcome State Fault Refusal :=
  .next (issueCommand (.smul rd rs1 rs2) (effectSmul rd rs1 rs2 s.block.x) s)

end Sys2Proof.Machine
end

