-- ==== Sys2Proof/Machine/Nop.lean ====
section
/-! DEFINITION. `NOP` (40_command_execution.md R107). -/

namespace Sys2Proof.Machine

/-- `exec(NOP, srcs) = ([], 0)` (R107). -/
def effectNop (_srcs : Regs) : Pending := { writes := [], steps := 0 }

/-- `nop`: the life cycle and nothing else. -/
def execNop (s : State) : Host.Outcome State Fault Refusal :=
  .next (issueCommand .nop (effectNop s.block.x) s)

end Sys2Proof.Machine
end

