-- ==== Sys2Proof/Machine/Dispatch.lean ====
section
/-! DEFINITION. One arm per command (40_command_execution.md R102). -/

namespace Sys2Proof.Machine

def exec (i : Instr) (s : State) : Host.Outcome State Fault Refusal :=
  match i with
  | .nop => Sys2Proof.Machine.execNop s
  | .fmul rd rs1 rs2 => Sys2Proof.Machine.execFmul rd rs1 rs2 s
  | .fred rd rs1 => Sys2Proof.Machine.execFred rd rs1 s
  | .cswap rd rs1 rs2 k => Sys2Proof.Machine.execCswap rd rs1 rs2 k s
  | .clamp rd rs1 => Sys2Proof.Machine.execClamp rd rs1 s
  | .ladder rd rs1 rs2 rs3 => Sys2Proof.Machine.execLadder rd rs1 rs2 rs3 s
  | .smul rd rs1 rs2 => Sys2Proof.Machine.execSmul rd rs1 rs2 s

end Sys2Proof.Machine
end

