-- ==== Sys2Proof/Machine/Events.lean ====
section
/-! DEFINITION. The events of the block: host accesses at the port, the engine's turn and reset
(10_state.md R30; 20_memory.md R60 to R75; 60_exceptions.md R213, R214; 70_reset_and_hazards.md R230). -/

namespace Sys2Proof.Machine

/-- A performed write of `CMD`: steps 2 to 7 of R213. The word's decoding depends on nothing else, and the checks
of `ERR` and `BUSY` come first in both arms (`issueChecks`). -/
def writeCommand (w : Word) (s : State) : Host.Outcome State Fault Refusal :=
  match decodeWord w with
  | .reject code => .next (rejectWord code w s)
  | .command i => exec i s

/-- A host access that is not 4 bytes at a multiple of 4 changes nothing but the error record (R66, R208). -/
def rejectAccess (off : Offset) (s : State) : State :=
  { s with block := raiseError .busAccess (zext32 off) s.block }

/-- A host access at a window offset: size and alignment first (R213 step 1, R214), then as its register's rule
gives. A read returns its data to the host and changes nothing of the block; a rejected read returns 0. -/
def accessWindow (off : Offset) (a : Access) (s : State) : Host.Outcome State Fault Refusal :=
  match a with
  | .read n =>
    if performed off n then .next { s with readData := some (windowWord off s.block) }
    else .next { rejectAccess off s with readData := some 0 }
  | .write n v =>
    if performed off n then
      if off = 0x000 then writeCommand (v.setWidth 32) s
      else .next { s with block := writeRegister off (v.setWidth 32) s.block }
    else .next (rejectAccess off s)

/-- The window offset of a host address: `none` outside `[BASE, BASE + 0xFFF]` (R60, R75). -/
def windowOffset? (addr : Nat) : Option Offset :=
  if Config.base ≤ addr ∧ addr < Config.base + Config.window then some (BitVec.ofNat 12 (addr - Config.base))
  else none

/-- The access an event brings to the block, with its window offset; none for an address outside the window. -/
def portAccess : Event → Option (Offset × Access)
  | .window off a => some (off, a)
  | .host addr a => (windowOffset? addr).map fun off => (off, a)
  | .engine => none
  | .completion => none
  | .reset => none

/-- One event, at its place in the total order (R30, R69). A host address outside the window does not reach the
block (R75). Reset abandons a command in flight (R230). -/
def deliver (e : Event) (s : State) : Host.Outcome State Fault Refusal :=
  match e with
  | .window off a => accessWindow off a s
  | .host addr a =>
    match windowOffset? addr with
    | some off => accessWindow off a s
    | none => .next s
  | .engine => .next { s with block := engineStep s.block }
  | .completion => .next { s with block := finishCommand s.block }
  | .reset => .next { s with block := Block.reset }

/-- The event of a host that writes the `nbits`-bit command word `w` to `CMD`; the bits above are 0 (R80). -/
def commandEvent (nbits w : Nat) : Event := .window 0x000 (.write 4 (BitVec.ofNat 32 (w % 2 ^ nbits)))

end Sys2Proof.Machine
end

