-- ==== Sys2Proof/Machine/Step.lean ====
section
/-! DEFINITION. One step of the machine: the next event of the total order (20_memory.md R69). With no event
waiting the next event is the completion of the command in flight, so it is taken after finitely many others
(R106, R241); an idle engine then changes nothing.
The block has no program counter and fetches nothing (R35): a command arrives as a host write of `CMD`. -/

namespace Sys2Proof.Machine

def step (s : State) : Host.Outcome State Fault Refusal :=
  match s.inputs with
  | [] => deliver .completion s
  | e :: rest => deliver e { s with inputs := rest }

/-- `s` with a host write of the command word `w` to `CMD` as its very next event: the block has no other way to
come by a command (R35, R100). Assumption 5. -/
def State.withFetchWord (s : State) (nbits w : Nat) : State :=
  { s with inputs := commandEvent nbits w :: s.inputs }

end Sys2Proof.Machine
end

