-- ==== Sys2Proof/Machine/Datapath.lean ====
section
/-! DEFINITION. The reference datapath: 16 limbs of radix 2^16 (41_field_arithmetic.md Part 2, R125 to R138) and the
fixed sequence of limb operations of the ladder and the inversion (42_montgomery_ladder.md R163, R165).
It is internal: no command's meaning rests on it (R123, R125). A limb vector is the list of its 16 limbs, limb 0
first. Limbs are exact integers; that none leaves the signed 64-bit range is a claim (R136), not a wrap. -/

namespace Sys2Proof.Machine

/-- `V(l) = sum l[i] * 2^(16i)` (R126). -/
def limbValue : List Int → Int
  | [] => 0
  | l :: ls => l + 2 ^ 16 * limbValue ls

/-- `unpack_L(w)`: 16-bit limbs, the top one `w[254:240]` of 15 bits (R127). -/
def unpackL (w : XWord) : List Int :=
  (List.range 16).map fun i => ((w.extractLsb' (16 * i) (if i = 15 then 15 else 16)).toNat : Int)

/-- The carries of one pass from limb to limb: `o[i] mod 2^16` stays, `floor(o[i] / 2^16)` goes on. The second
component is the carry out of the last limb (R128). -/
def carryChain (c : Int) : List Int → List Int × Int
  | [] => ([], c)
  | l :: ls =>
    let r := carryChain ((l + c) / 2 ^ 16) ls
    ((l + c) % 2 ^ 16 :: r.1, r.2)

/-- Add to limb 0. -/
def addToHead (c : Int) : List Int → List Int
  | [] => []
  | l :: ls => (l + c) :: ls

/-- `carry_L(o)`: the carry out of limb 15 goes back into limb 0 times 38 (R128, C2). -/
def carryL (o : List Int) : List Int :=
  let r := carryChain 0 o
  addToHead (38 * r.2) r.1

/-- `add_L(a, b)`: limb-wise, no carry (R129). -/
def addL (a b : List Int) : List Int := List.zipWith (· + ·) a b

/-- `sub_L(a, b)`: limb-wise, no carry (R130). -/
def subL (a b : List Int) : List Int := List.zipWith (· - ·) a b

/-- Coefficient-wise sum of two polynomials of any lengths. -/
def addPoly : List Int → List Int → List Int
  | [], b => b
  | a, [] => a
  | a :: as, b :: bs => (a + b) :: addPoly as bs

/-- Schoolbook product: coefficients `t[0..30]` of two 16-limb operands (R131). -/
def mulPoly : List Int → List Int → List Int
  | [], _ => []
  | a :: as, b => addPoly (b.map (a * ·)) (0 :: mulPoly as b)

/-- The fold of the top half: `t[k] + 38 * t[16+k]` (R131, C2). -/
def foldTop (t : List Int) : List Int := addPoly (t.take 16) ((t.drop 16).map (38 * ·))

/-- `mul_L(a, b)` (R131). -/
def mulL (a b : List Int) : List Int := carryL (carryL (foldTop (mulPoly a b)))

/-- `sqr_L(a) = mul_L(a, a)` (R132). -/
def sqrL (a : List Int) : List Int := mulL a a

/-- `t ^ (mask & (t ^ m))` on 64-bit two's-complement patterns: `m` for all ones, `t` for all zeros (R133, R135). -/
def select64 (mask t m : Int) : Int :=
  let T := BitVec.ofInt 64 t
  (T ^^^ (BitVec.ofInt 64 mask &&& (T ^^^ BitVec.ofInt 64 m))).toInt

/-- `cswap_L(a, b, bit)`: the exchange by a mask, `0 - bit` (R135). -/
def cswapL (bit : Bool) (a b : List Int) : List Int × List Int :=
  let mask : Int := 0 - (if bit then 1 else 0)
  (List.zipWith (select64 mask) a b, List.zipWith (select64 mask) b a)

/-- The limbs of `p` (R133). -/
def primeLimbs : List Int := 0xFFED :: List.replicate 14 0xFFFF ++ [0x7FFF]

/-- The limbs of `t - q` and the final borrow (R133). -/
def subBorrow (borrow : Int) : List Int → List Int → List Int × Int
  | t :: ts, q :: qs =>
    let d := t - q - borrow
    let b := d / 2 ^ 16 % 2
    let r := subBorrow b ts qs
    ((d + b * 2 ^ 16) :: r.1, r.2)
  | _, _ => ([], borrow)

/-- One masked subtraction of `p` (R133). -/
def subtractPrime (t : List Int) : List Int :=
  let r := subBorrow 0 t primeLimbs
  List.zipWith (select64 (0 - (1 - r.2))) t r.1

/-- `pack_L(a)`: three carry passes, two masked subtractions of `p`, the 32 bytes (R133). -/
def packL (a : List Int) : List Byte :=
  (subtractPrime (subtractPrime (carryL (carryL (carryL a))))).flatMap fun l =>
    [BitVec.ofInt 8 l, BitVec.ofInt 8 (l / 256)]

/-! ## The operation sequence -/

/-- The limb vectors the sequence names (R163), `inv` the running value of the inversion (R134), and `tmp` for
the unnamed intermediate of a nested call. -/
inductive Slot where
  | x1 | x2 | z2 | x3 | z3 | a | aa | b | bb | e | c | d | da | cb | a24 | inv | tmp
deriving DecidableEq, Repr

/-- One limb operation. `flagXor t` and `flagSet t` are `swap ^= s[t]` and `swap = s[t]` (R163). -/
inductive LimbOp where
  | add (dst l r : Slot)
  | sub (dst l r : Slot)
  | mul (dst l r : Slot)
  | sqr (dst l : Slot)
  | cswap (l r : Slot)
  | copy (dst l : Slot)
  | flagXor (t : Nat)
  | flagSet (t : Nat)
deriving DecidableEq, Repr

/-- The datapath's working storage, which no command sees (R50). -/
structure Storage where
  x1 : List Int
  x2 : List Int
  z2 : List Int
  x3 : List Int
  z3 : List Int
  a : List Int
  aa : List Int
  b : List Int
  bb : List Int
  e : List Int
  c : List Int
  d : List Int
  da : List Int
  cb : List Int
  a24 : List Int
  inv : List Int
  tmp : List Int
  swap : Bool
deriving DecidableEq, Repr

def Storage.get (st : Storage) : Slot → List Int
  | .x1 => st.x1 | .x2 => st.x2 | .z2 => st.z2 | .x3 => st.x3 | .z3 => st.z3
  | .a => st.a | .aa => st.aa | .b => st.b | .bb => st.bb | .e => st.e | .c => st.c | .d => st.d
  | .da => st.da | .cb => st.cb | .a24 => st.a24 | .inv => st.inv | .tmp => st.tmp

def Storage.set (st : Storage) (v : List Int) : Slot → Storage
  | .x1 => { st with x1 := v } | .x2 => { st with x2 := v } | .z2 => { st with z2 := v }
  | .x3 => { st with x3 := v } | .z3 => { st with z3 := v }
  | .a => { st with a := v } | .aa => { st with aa := v } | .b => { st with b := v }
  | .bb => { st with bb := v } | .e => { st with e := v } | .c => { st with c := v }
  | .d => { st with d := v } | .da => { st with da := v } | .cb => { st with cb := v }
  | .a24 => { st with a24 := v } | .inv => { st with inv := v } | .tmp => { st with tmp := v }

/-- One limb operation, for the scalar `s`. -/
def runLimbOp (s : XWord) (st : Storage) : LimbOp → Storage
  | .add dst l r => st.set (addL (st.get l) (st.get r)) dst
  | .sub dst l r => st.set (subL (st.get l) (st.get r)) dst
  | .mul dst l r => st.set (mulL (st.get l) (st.get r)) dst
  | .sqr dst l => st.set (sqrL (st.get l)) dst
  | .cswap l r =>
    let w := cswapL st.swap (st.get l) (st.get r)
    (st.set w.1 l).set w.2 r
  | .copy dst l => st.set (st.get l) dst
  | .flagXor t => { st with swap := st.swap ^^ s.getLsbD t }
  | .flagSet t => { st with swap := s.getLsbD t }

def runLimbOps (s : XWord) (ops : List LimbOp) (st : Storage) : Storage := ops.foldl (runLimbOp s) st

/-- The sequence of iteration `t`, the same for every scalar and every point (R138, R163). -/
def iterationOps (t : Nat) : List LimbOp :=
  [.flagXor t, .cswap .x2 .x3, .cswap .z2 .z3, .flagSet t,
   .add .a .x2 .z2, .sub .b .x2 .z2, .add .c .x3 .z3, .sub .d .x3 .z3,
   .sqr .aa .a, .sqr .bb .b, .sub .e .aa .bb, .mul .da .d .a, .mul .cb .c .b,
   .add .tmp .da .cb, .sqr .x3 .tmp,
   .sub .tmp .da .cb, .sqr .tmp .tmp, .mul .z3 .x1 .tmp,
   .mul .x2 .aa .bb,
   .mul .tmp .e .a24, .add .tmp .tmp .aa, .mul .z2 .e .tmp]

/-- The iterations `n - 1` down to 0. -/
def loopOps : Nat → List LimbOp
  | 0 => []
  | t + 1 => iterationOps t ++ loopOps t

/-- The whole ladder: 255 iterations and the final exchange (R163). -/
def ladderOps : List LimbOp := loopOps 255 ++ [.cswap .x2 .x3, .cswap .z2 .z3]

/-- The inversion chain from `inv` on: square for each exponent bit, multiply by Z where the bit is 1; the test
is of the public loop index (R134). -/
def chainOps (bits : List Bool) : List LimbOp :=
  bits.flatMap fun bit => if bit then [.sqr .inv .inv, .mul .inv .inv .z2] else [.sqr .inv .inv]

/-- `inv_L(z2L)` (R134). -/
def inverseOps : List LimbOp := .copy .inv .z2 :: chainOps fermatBits

/-- `SMUL` on the datapath: the ladder, the inversion, the final product (R165). -/
def smulOps : List LimbOp := ladderOps ++ inverseOps ++ [.mul .tmp .x2 .inv]

/-- The limbs of a small constant. -/
def smallL (l0 l1 : Int) : List Int := l0 :: l1 :: List.replicate 14 0

/-- The storage before the loop, for the u-coordinate `u` (R163). `A24 = 121665`. -/
def initStorage (u : XWord) : Storage :=
  { x1 := unpackL u, x2 := smallL 1 0, z2 := smallL 0 0, x3 := unpackL u, z3 := smallL 1 0,
    a := smallL 0 0, aa := smallL 0 0, b := smallL 0 0, bb := smallL 0 0, e := smallL 0 0, c := smallL 0 0,
    d := smallL 0 0, da := smallL 0 0, cb := smallL 0 0, a24 := smallL 0xDB41 1, inv := smallL 0 0,
    tmp := smallL 0 0, swap := false }

/-- `inv_L(a)` (R134). -/
def inverseL (a : List Int) : List Int := (runLimbOps 0 inverseOps { initStorage 0 with z2 := a }).inv

/-- `FMUL` on the datapath (R140). -/
def datapathFmul (a b : XWord) : XWord := xwordOfBytes (packL (mulL (unpackL a) (unpackL b)))

/-- `FRED` on the datapath (R141). -/
def datapathFred (a : XWord) : XWord := xwordOfBytes (packL (unpackL a))

/-- `LADDER` on the datapath (R164). -/
def datapathLadder (s u : XWord) : XWord × XWord :=
  let st := runLimbOps s ladderOps (initStorage u)
  (xwordOfBytes (packL st.x2), xwordOfBytes (packL st.z2))

/-- `SMUL` on the datapath, run on `clamp(s)` (R165). -/
def datapathSmul (s u : XWord) : XWord :=
  xwordOfBytes (packL (runLimbOps (clamp s) smulOps (initStorage u)).tmp)

/-- How many exchanges, additions, subtractions, squarings and multiplications a sequence performs (R163). -/
def opCounts : List LimbOp → Nat × Nat × Nat × Nat × Nat
  | [] => (0, 0, 0, 0, 0)
  | op :: ops =>
    let (sw, ad, su, sq, mu) := opCounts ops
    match op with
    | .cswap _ _ => (sw + 1, ad, su, sq, mu)
    | .add _ _ _ => (sw, ad + 1, su, sq, mu)
    | .sub _ _ _ => (sw, ad, su + 1, sq, mu)
    | .sqr _ _ => (sw, ad, su, sq + 1, mu)
    | .mul _ _ _ => (sw, ad, su, sq, mu + 1)
    | .copy _ _ => (sw, ad, su, sq, mu)
    | .flagXor _ => (sw, ad, su, sq, mu)
    | .flagSet _ => (sw, ad, su, sq, mu)

end Sys2Proof.Machine
end

