-- ==== Sys2Proof/Machine/HostNotation.lean ====
section
/-! DEFINITION. The host program notation of 30_encoding.md R91 as events of the port, the assembler's texts (R89)
and the pseudo-instructions (R90). None of it is part of the block: a host brings these events. -/

namespace Sys2Proof.Machine

/-- `W off, v`. -/
def hostWriteEvent (off : Offset) (v : Word) : Event := .window off (.write 4 v)

/-- `R off`. -/
def hostReadEvent (off : Offset) : Event := .window off (.read 4)

/-- `LOADX i, v`: eight writes of the words of `v`, in ascending order (R64, R91). -/
def loadXEvents (i : Reg) (v : XWord) : List Event :=
  (List.finRange 8).map fun j => hostWriteEvent (operandOffset i j) (wordOf v j)

/-- `READX i`: eight reads, in ascending order (R91). -/
def readXEvents (i : Reg) : List Event := (List.finRange 8).map fun j => hostReadEvent (operandOffset i j)

/-- `CMD <asm>`. -/
def cmdEvent (i : Instr) : Event := hostWriteEvent 0x000 (encode i)

/-- `CMD <asm>` then `WAIT`: the host's polls change nothing (R68), so the next event that does is the completion. -/
def cmdAndWait (i : Instr) : List Event := [cmdEvent i, .completion]

/-- The base point of public-key derivation, `0900..00` (R13, R166). -/
def basePoint : XWord := 9

/-- The spelling of an operand register, `x0` to `x7` (R31, R89). -/
def regText (r : Reg) : String := "x" ++ toString r.val

/-- The assembler text of a command (R89). -/
def asmText : Instr → String
  | .nop => "nop"
  | .fmul rd rs1 rs2 => "fmul " ++ regText rd ++ ", " ++ regText rs1 ++ ", " ++ regText rs2
  | .fred rd rs1 => "fred " ++ regText rd ++ ", " ++ regText rs1
  | .cswap rd rs1 rs2 k =>
    "cswap " ++ regText rd ++ ", " ++ regText rs1 ++ ", " ++ regText rs2 ++ ", " ++ toString k.toNat
  | .clamp rd rs1 => "clamp " ++ regText rd ++ ", " ++ regText rs1
  | .ladder rd rs1 rs2 rs3 =>
    "ladder " ++ regText rd ++ ", " ++ regText rs3 ++ ", " ++ regText rs1 ++ ", " ++ regText rs2
  | .smul rd rs1 rs2 => "smul " ++ regText rd ++ ", " ++ regText rs1 ++ ", " ++ regText rs2

/-- `fsqr xd, xa` (R90). -/
def fsqr (d a : Reg) : Instr := .fmul d a a

/-- `fmov xd, xa`: a copy only of a canonical word (R90). -/
def fmov (d a : Reg) : Instr := .fred d a

/-- `x25519 xd, xs, xu` (R90). -/
def x25519 (d s u : Reg) : Instr := .smul d s u

/-- `swapif xa, xb, xc` (R90). -/
def swapif (a b c : Reg) : Instr := .cswap a b c 0

/-- `derivePublicKey` on the block: `smul xd, xs, xb` with `x[b]` the base point (R166). -/
def derivePublicKeyEvents (d s b : Reg) : List Event := loadXEvents b basePoint ++ cmdAndWait (.smul d s b)

/-- `deriveSharedSecret` on the block: `smul xd, xs, xpeer`, the peer's key as it is (R166). -/
def deriveSharedSecretEvents (d s peer : Reg) : List Event := cmdAndWait (.smul d s peer)

end Sys2Proof.Machine
end

