-- ==== Sys2Proof/Machine/Effect.lean ====
section
/-! DEFINITION. `exec(c, srcs)` as one total function of the command and the latched registers
(40_command_execution.md R102), and the registers a command reads and writes (10_state.md R33). -/

namespace Sys2Proof.Machine

/-- `exec(c, srcs)` (R102). -/
def effectOf : Instr → Regs → Pending
  | .nop => effectNop
  | .fmul rd rs1 rs2 => effectFmul rd rs1 rs2
  | .fred rd rs1 => effectFred rd rs1
  | .cswap rd rs1 rs2 k => effectCswap rd rs1 rs2 k
  | .clamp rd rs1 => effectClamp rd rs1
  | .ladder rd rs1 rs2 rs3 => effectLadder rd rs1 rs2 rs3
  | .smul rd rs1 rs2 => effectSmul rd rs1 rs2

/-- The registers a command reads at acceptance (R33). -/
def sourcesOf : Instr → List Reg
  | .nop => []
  | .fmul _ rs1 rs2 => [rs1, rs2]
  | .fred _ rs1 => [rs1]
  | .cswap rd rs1 rs2 _ => [rd, rs1, rs2]
  | .clamp _ rs1 => [rs1]
  | .ladder _ rs1 rs2 _ => [rs1, rs2]
  | .smul _ rs1 rs2 => [rs1, rs2]

/-- The registers a command writes at completion (R33). -/
def destinationsOf : Instr → List Reg
  | .nop => []
  | .fmul rd _ _ => [rd]
  | .fred rd _ => [rd]
  | .cswap rd rs1 _ _ => [rd, rs1]
  | .clamp rd _ => [rd]
  | .ladder rd _ _ rs3 => [rd, rs3]
  | .smul rd _ _ => [rd]

end Sys2Proof.Machine
end

