-- ==== Sys2Proof/Safety.lean ====
section
/-! DEFINITION. What is true of the block after every event, and what of a run may depend on operand values. -/

namespace Sys2Proof.Machine

/-- The error record is consistent (R43, R46, R201): no code without an error, codes 1 to 6 with one, and `ERRINFO`
is a word or an offset that the code rejects. -/
structure ErrorRecordOk (b : Block) : Prop where
  none_recorded : b.err = false → b.errCode = 0 ∧ b.errInfo = 0
  code_range : b.err = true → 1 ≤ b.errCode.toNat ∧ b.errCode.toNat ≤ 6
  illegal_opcode : b.errCode = 1 → decodeWord b.errInfo = .reject .illegalOpcode
  reserved_field : b.errCode = 2 → decodeWord b.errInfo = .reject .reservedField
  operand_busy : b.errCode = 4 → 0x100 ≤ b.errInfo.toNat ∧ b.errInfo.toNat ≤ 0x1FC ∧ b.errInfo.toNat % 4 = 0
  operand_conflict : b.errCode = 5 → decodeWord b.errInfo = .reject .operandConflict
  bus_access : b.errCode = 6 → b.errInfo.toNat < 4096

/-- The command in flight (R39, R40, R49, R101, R106): `DONE` is 0, `cur` is the last accepted word and a legal
command, the pending results are those of the registers as they stand, since nothing writes a register while the
engine is busy, and between 1 and `LAT(op)` engine steps are left. -/
def InFlightOk (b : Block) : Prop :=
  ∀ cur pending remaining, b.engine = .busy cur pending remaining →
    b.done = false ∧ cur = b.cmdLast ∧
      ∃ i, decodeWord cur = .command i ∧ pending = effectOf i b.x ∧ 1 ≤ remaining ∧ remaining ≤ Config.lat i.opcode

/-- The block's invariant: the error record, the command in flight, `CMD_LAST` a legal command word (R38; `NOP` at
reset), `STEPS` 0 or 255 (R47). -/
structure BlockInv (b : Block) : Prop where
  errors : ErrorRecordOk b
  inFlight : InFlightOk b
  lastCommand : ∃ i, decodeWord b.cmdLast = .command i
  steps_value : b.steps = 0 ∨ b.steps = 255

/-! ## What may depend on operand values (R105, R138, R239) -/

/-- A host access with the data of an operand-window write left out. -/
def publicAccess (off : Offset) (a : Access) : Access :=
  match a with
  | .read n => .read n
  | .write n v => if isOperandOffset off then .write n 0 else .write n v

/-- An event with the data of an operand-window write left out. -/
def publicEvent (e : Event) : Event :=
  match e with
  | .window off a => .window off (publicAccess off a)
  | .host addr a =>
    match windowOffset? addr with
    | some off => .host addr (publicAccess off a)
    | none => .host addr a
  | .engine => .engine
  | .completion => .completion
  | .reset => .reset

/-- The engine with the values of its pending writes left out. -/
def publicEngine (e : Engine) : Engine :=
  match e with
  | .idle => .idle
  | .busy cur pending remaining =>
    .busy cur { writes := pending.writes.map fun w => (w.1, 0), steps := pending.steps } remaining

/-- The block with every operand value left out: `CMD_LAST`, `STATUS`, `INTEN`, `ERRINFO`, `STEPS`, which command is
in flight, the registers it will write, and how many engine steps it has left. -/
def publicBlock (b : Block) : Block :=
  { b with x := Vector.replicate 8 0, engine := publicEngine b.engine }

/-- Everything of a state that is not an operand value (the data of the last read left out). -/
def publicView (s : State) : Block × List Event := (publicBlock s.block, s.inputs.map publicEvent)

end Sys2Proof.Machine
end

