-- ==== Sys2Proof/Certificates/Slice0/Obligations.lean ====
section
/-! DEFINITION. The statements for the provers, each from the spec's rules. -/

namespace Sys2Proof.Claims
open Sys2Proof.Machine

/-- What the machine answers when the host's next event is a 4-byte write. -/
def hostWrite (off : Offset) (v : Word) (s : State) : Host.Outcome State Fault Refusal :=
  step { s with inputs := .window off (.write 4 v) :: s.inputs }

/-- What the machine answers when the host's next event is a 4-byte read. The data returned is the model's own field
`readData` (assumption 6). -/
def hostRead (off : Offset) (s : State) : Host.Outcome State Fault Refusal :=
  step { s with inputs := .window off (.read 4) :: s.inputs }

/-- What the machine answers when `e` is the next event. -/
def onEvent (e : Event) (s : State) : Host.Outcome State Fault Refusal := step { s with inputs := e :: s.inputs }

/-- The machine after `k` engine steps that come before every other event. -/
def afterEngineSteps (k : Nat) (s : State) : Host.Outcome State Fault Refusal :=
  Sys2Proof.core.run k { s with inputs := List.replicate k .engine ++ s.inputs }

/-- A command can be accepted: `ERR = 0` and `BUSY = 0` (R213 steps 2 and 3). -/
def ready (b : Block) : Prop := b.err = false ∧ b.busy = false

/-- `s` right after the acceptance of `i` with the given pending results (R101). -/
def accepted (i : Instr) (writes : List (Reg × XWord)) (n : Nat) (s : State) : State :=
  { s with
    block := { s.block with
      cmdLast := encode i
      done := false
      engine := .busy (encode i) { writes := writes, steps := n } (Config.lat i.opcode) } }

/-- `s` right after the completion of `i`, accepted in `s`, with the registers `x` and the step count `n` (R103). -/
def completed (i : Instr) (x : Regs) (n : Word) (s : State) : State :=
  { s with block := { s.block with x := x, cmdLast := encode i, done := true, steps := n, engine := .idle } }

/-- The error record a rejection with `code` and `info` leaves (R202). -/
def rejectedWith (code : BitVec 4) (info : Word) (b : Block) : Block :=
  if b.err then { b with dropped := true } else { b with err := true, errCode := code, errInfo := info }

/-- The accesses the block does not perform (R210): wrong size or alignment, a command word that is dropped or
rejected, an operand write while busy. -/
def turnedAway (off : Offset) (a : Access) (b : Block) : Prop :=
  match a with
  | .read n => ¬(n = 4 ∧ off.toNat % 4 = 0)
  | .write n v =>
    ¬(n = 4 ∧ off.toNat % 4 = 0) ∨
    (off = 0x000 ∧ (b.err = true ∨ b.busy = true ∨ ∃ c, decodeWord (v.setWidth 32) = .reject c)) ∨
    (0x100 ≤ off.toNat ∧ off.toNat ≤ 0x1FF ∧ b.busy = true)

/-- Limbs as `mul_L` and `unpack_L` leave them: 1 to 15 in `[0, 2^16)`, limb 0 in `[-38, 2^16 + 38)` (R128). -/
def reducedLimbs (l : List Int) : Prop :=
  l.length = 16 ∧ ∀ i (h : i < l.length),
    if i = 0 then -38 ≤ l[i] ∧ l[i] < 2 ^ 16 + 38 else 0 ≤ l[i] ∧ l[i] < 2 ^ 16

/-- Sixteen limbs of magnitude at most `B`. -/
def boundedLimbs (B : Int) (l : List Int) : Prop := l.length = 16 ∧ ∀ x ∈ l, -B ≤ x ∧ x ≤ B

end Sys2Proof.Claims

open Sys2Proof Sys2Proof.Machine Sys2Proof.Claims

/-! ## Encoding -/

/-- Every well-formed command, with every operand at every value, decodes back from its word (R81, R85, R86). -/
def Obligations.CommandsDecodeBack : Prop :=
  ∀ i : Instr, i.wellFormed = true → decodeWord (encode i) = .command i

/-- Every word that decodes to a command is that command's own word, and the command is well-formed. -/
def Obligations.DecodedWordsEncodeBack : Prop :=
  ∀ (w : Word) (i : Instr), decodeWord w = .command i → i.wellFormed = true ∧ encode i = w

/-- R85: the legal words are those of the table's rows, and `LADDER`'s destinations differ. -/
def Obligations.LegalWordsAreTheTableRows : Prop :=
  ∀ w : Word, (∃ i, decodeWord w = .command i) ↔
    (w &&& 0xFFFFFFFF = 0x00000000 ∨ w &&& 0xFFF888FF = 0x00000001 ∨ w &&& 0xFFFF88FF = 0x00000002 ∨
     w &&& 0x00F888FF = 0x00000003 ∨ w &&& 0xFFFF88FF = 0x00000004 ∨
     (w &&& 0xFF8888FF = 0x00000005 ∧ w.extractLsb' 8 3 ≠ w.extractLsb' 20 3) ∨
     w &&& 0xFFF888FF = 0x00000006)

/-- R86: which words are rejected under which code. -/
def Obligations.RejectedWordsHaveTheirCode : Prop :=
  ∀ w : Word,
    (decodeWord w = .reject .illegalOpcode ↔ 6 < (w.extractLsb' 0 4).toNat) ∧
    (decodeWord w = .reject .operandConflict ↔
      w &&& 0xFF8888FF = 0x00000005 ∧ w.extractLsb' 8 3 = w.extractLsb' 20 3) ∧
    (decodeWord w = .reject .reservedField ↔
      (w.extractLsb' 0 4).toNat ≤ 6 ∧
      w &&& 0xFFFFFFFF ≠ 0x00000000 ∧ w &&& 0xFFF888FF ≠ 0x00000001 ∧ w &&& 0xFFFF88FF ≠ 0x00000002 ∧
      w &&& 0x00F888FF ≠ 0x00000003 ∧ w &&& 0xFFFF88FF ≠ 0x00000004 ∧ w &&& 0xFF8888FF ≠ 0x00000005 ∧
      w &&& 0xFFF888FF ≠ 0x00000006)

/-- R87: no word but `0x00000000` is a no-op. -/
def Obligations.OnlyTheZeroWordIsNop : Prop := ∀ w : Word, decodeWord w = .command .nop ↔ w = 0x00000000

/-- R89: the words the spec assembles. -/
def Obligations.SpecExampleWordsDecode : Prop :=
  decodeWord 0x00010201 = .command (.fmul 2 0 1) ∧ decodeWord 0x00001102 = .command (.fred 1 1) ∧
  decodeWord 0xFE021003 = .command (.cswap 0 1 2 254) ∧ decodeWord 0x00000004 = .command (.clamp 0 0) ∧
  decodeWord 0x00310205 = .command (.ladder 2 0 1 3) ∧ decodeWord 0x00010206 = .command (.smul 2 0 1) ∧
  decodeWord 0x00000000 = .command .nop

/-! ## The step and the order of checks -/

/-- R35, R38, R100: a step whose event is a `CMD` write of a word that decodes to `i` is `exec i`. -/
def Obligations.StepRunsTheDecodedCommand : Prop :=
  ∀ (s : State) (w : Word) (i : Instr), decodeWord w = .command i →
    hostWrite 0x000 w s = exec i s

/-- Every step answers a next state: no event stops the machine (R200, R211; assumption 10). -/
def Obligations.StepNeverStops : Prop := ∀ s : State, ∃ t, step s = .next t

/-- R213 (and R203 to R205, R207, R209), step by step: which check of a `CMD` write applies, and the whole state it
leaves. -/
def Obligations.CommandWriteFollowsTheCheckOrder : Prop :=
  ∀ s : State,
    (∀ (n : Nat) (v : BitVec (8 * n)), n ≠ 4 →
      onEvent (.window 0x000 (.write n v)) s = .next { s with block := rejectedWith 6 0 s.block }) ∧
    (∀ w : Word, s.block.err = true →
      hostWrite 0x000 w s = .next { s with block := { s.block with dropped := true } }) ∧
    (∀ w : Word, s.block.err = false → s.block.busy = true →
      hostWrite 0x000 w s =
        .next { s with block := { s.block with err := true, errCode := 3, errInfo := w } }) ∧
    (∀ w : Word, s.block.err = false → s.block.busy = false → 6 < (w.extractLsb' 0 4).toNat →
      hostWrite 0x000 w s =
        .next { s with block := { s.block with err := true, errCode := 1, errInfo := w } }) ∧
    (∀ (w : Word) (op : Opcode), s.block.err = false → s.block.busy = false → w.extractLsb' 0 4 = op.code →
      w &&& op.maskWord ≠ op.matchWord →
      hostWrite 0x000 w s =
        .next { s with block := { s.block with err := true, errCode := 2, errInfo := w } }) ∧
    (∀ w : Word, s.block.err = false → s.block.busy = false → w &&& 0xFF8888FF = 0x00000005 →
      w.extractLsb' 8 3 = w.extractLsb' 20 3 →
      hostWrite 0x000 w s =
        .next { s with block := { s.block with err := true, errCode := 5, errInfo := w } }) ∧
    (∀ (w : Word) (i : Instr), s.block.err = false → s.block.busy = false → decodeWord w = .command i →
      hostWrite 0x000 w s =
        .next { s with block := { s.block with
          cmdLast := w
          done := false
          engine := .busy w (effectOf i s.block.x) (Config.lat i.opcode) } })

/-- R60, R75: a host address outside the window does not reach the block; one inside is its offset's access. That
the access is then an event without effect is the model's choice (assumption 13). -/
def Obligations.HostAddressesReachTheWindowOnly : Prop :=
  ∀ s : State,
    (∀ (addr : Nat) (a : Access), addr < Config.base ∨ Config.base + 4096 ≤ addr →
      onEvent (.host addr a) s = .next s) ∧
    (∀ (off : Offset) (a : Access),
      onEvent (.host (Config.base + off.toNat) a) s = onEvent (.window off a) s)

/-! ## Errors -/

/-- R210: what is turned away changes nothing but the error record, and that as R202 and R209 give. -/
def Obligations.ErrorsArePrecise : Prop :=
  ∀ (s t : State) (e : Event) (off : Offset) (a : Access),
    portAccess e = some (off, a) → turnedAway off a s.block → onEvent e s = .next t →
    t.block = { s.block with err := t.block.err, errCode := t.block.errCode, errInfo := t.block.errInfo,
                             dropped := t.block.dropped } ∧
    t.block.err = true ∧
    (s.block.err = true → t.block.dropped = true ∧ t.block.errCode = s.block.errCode ∧
      t.block.errInfo = s.block.errInfo) ∧
    (s.block.err = false → t.block.dropped = s.block.dropped)

/-- R41, R202, R218: the first error is kept until a `STATUS` write with bit 2 = 1 or reset clears it, and then the
whole record is 0. -/
def Obligations.FirstErrorIsKeptUntilCleared : Prop :=
  ∀ (s t : State) (e : Event), onEvent e s = .next t → s.block.err = true →
    (t.block.err = true ∧ t.block.errCode = s.block.errCode ∧ t.block.errInfo = s.block.errInfo) ∨
    (t.block.err = false ∧ t.block.errCode = 0 ∧ t.block.errInfo = 0 ∧
      (e = .reset ∨ ∃ v : Word, portAccess e = some (0x004, .write 4 v) ∧ v.getLsbD 2 = true))

/-- R66, R208: an access of another size or alignment. -/
def Obligations.BadAccessIsRejected : Prop :=
  ∀ (s : State) (off : Offset) (n : Nat) (v : BitVec (8 * n)), ¬(n = 4 ∧ off.toNat % 4 = 0) →
    onEvent (.window off (.read n)) s =
      .next { s with block := rejectedWith 6 (off.setWidth 32) s.block, readData := some 0 } ∧
    onEvent (.window off (.write n v)) s =
      .next { s with block := rejectedWith 6 (off.setWidth 32) s.block }

/-- R206: an operand write while busy is discarded; an operand read while busy returns the current contents. -/
def Obligations.OperandWritesWhileBusyAreDiscarded : Prop :=
  ∀ (s : State) (i : Reg) (j : Fin 8) (v : Word), s.block.busy = true →
    hostWrite (operandOffset i j) v s =
      .next { s with block := rejectedWith 4 ((operandOffset i j).setWidth 32) s.block } ∧
    hostRead (operandOffset i j) s =
      .next { s with readData := some ((readX s.block.x i).extractLsb' (32 * j.val) 32) }

/-- R205, R209: every command, whatever its operands, is turned away while `ERR = 1` or `BUSY = 1`. -/
def Obligations.CommandsAreTurnedAwayUnlessReady : Prop :=
  ∀ (s : State) (i : Instr),
    (s.block.err = true → exec i s = .next { s with block := { s.block with dropped := true } }) ∧
    (s.block.err = false → s.block.busy = true → exec i s =
      .next { s with block := { s.block with err := true, errCode := 3, errInfo := encode i } })

/-- `LADDER` with one register for both results, as R207 rejects its word. That `exec`, which no word reaches with
such a term, records the error itself is the model's choice (assumption 10); of the `CMD` word it is stated in
`CommandWriteFollowsTheCheckOrder`. -/
def Obligations.LadderWithOneDestinationIsRejected : Prop :=
  ∀ (s : State) (rd rs1 rs2 : Reg), ready s.block →
    exec (.ladder rd rs1 rs2 rd) s =
      .next { s with block := { s.block with
        err := true, errCode := 5, errInfo := encode (.ladder rd rs1 rs2 rd) } }

/-! ## Registers and the window -/

/-- R44: the bits of a `STATUS` read, and exactly what a `STATUS` write does, busy or not. -/
def Obligations.StatusReadAndWrite : Prop :=
  ∀ (s : State) (v : Word),
    (∃ r : Word, hostRead 0x004 s = .next { s with readData := some r } ∧
      ∀ k < 32, r.getLsbD k =
        if k = 0 then s.block.busy else if k = 1 then s.block.done else if k = 2 then s.block.err
        else if k = 3 then s.block.dropped else if 8 ≤ k ∧ k < 12 then s.block.errCode.getLsbD (k - 8)
        else false) ∧
    hostWrite 0x004 v s = .next { s with block := { s.block with
      done := if v.getLsbD 1 then false else s.block.done
      err := if v.getLsbD 2 then false else s.block.err
      errCode := if v.getLsbD 2 then 0 else s.block.errCode
      errInfo := if v.getLsbD 2 then 0 else s.block.errInfo
      dropped := if v.getLsbD 3 then false else s.block.dropped } }

/-- R45: `INTEN` holds bits 1:0 of the last write, and its other bits read 0. -/
def Obligations.IntenKeepsTwoBits : Prop :=
  ∀ (s : State) (v : Word),
    hostWrite 0x008 v s =
      .next { s with block := { s.block with doneIE := v.getLsbD 0, errIE := v.getLsbD 1 } } ∧
    ∃ r : Word, hostRead 0x008 s = .next { s with readData := some r } ∧
      ∀ k < 32, r.getLsbD k = if k = 0 then s.block.doneIE else if k = 1 then s.block.errIE else false

/-- R62: reserved offsets read 0 and ignore writes, with no error. -/
def Obligations.ReservedOffsetsReadZeroAndIgnoreWrites : Prop :=
  ∀ (s : State) (off : Offset) (v : Word), off.toNat % 4 = 0 →
    (0x014 ≤ off.toNat ∧ off.toNat ≤ 0x0FF) ∨ 0x200 ≤ off.toNat →
    hostRead off s = .next { s with readData := some 0 } ∧ hostWrite off v s = .next s

/-- R37, R46, R47, R68: `ERRINFO` and `STEPS` read their register and ignore writes. -/
def Obligations.ReadOnlyRegistersIgnoreWrites : Prop :=
  ∀ (s : State) (v : Word),
    hostRead 0x00C s = .next { s with readData := some s.block.errInfo } ∧ hostWrite 0x00C v s = .next s ∧
    hostRead 0x010 s = .next { s with readData := some s.block.steps } ∧ hostWrite 0x010 v s = .next s

/-- R68, read as about performed reads (the model's reading, assumption 7): a performed read of any offset changes
nothing of the block, and a second one returns the same data. -/
def Obligations.PerformedReadsHaveNoSideEffect : Prop :=
  ∀ (s : State) (off : Offset), off.toNat % 4 = 0 →
    ∃ r, hostRead off s = .next { s with readData := some r } ∧
      ∀ d, hostRead off { s with readData := d } = .next { s with readData := some r }

/-- R64: word `j` of `x[i]`, its bytes, and an operand write while idle with its frame. -/
def Obligations.OperandWordsReadAndWrite : Prop :=
  ∀ (s : State) (i : Reg) (j : Fin 8) (v : Word),
    (∃ r : Word, hostRead (BitVec.ofNat 12 (0x100 + 32 * i.val + 4 * j.val)) s =
        .next { s with readData := some r } ∧
      r = (readX s.block.x i).extractLsb' (32 * j.val) 32 ∧
      ∀ k < 4, r.extractLsb' (8 * k) 8 = (readX s.block.x i).extractLsb' (8 * (4 * j.val + k)) 8) ∧
    (s.block.busy = false → ∃ w : XWord,
      hostWrite (BitVec.ofNat 12 (0x100 + 32 * i.val + 4 * j.val)) v s =
        .next { s with block := { s.block with x := s.block.x.set i.val w } } ∧
      ∀ k < 256, w.getLsbD k =
        if 32 * j.val ≤ k ∧ k < 32 * j.val + 32 then v.getLsbD (k - 32 * j.val)
        else (readX s.block.x i).getLsbD k)

/-- R63, R64, R91: the eight writes of `LOADX` load exactly the register's value. -/
def Obligations.LoadingEightWordsLoadsTheRegister : Prop :=
  ∀ (s : State) (i : Reg) (v : XWord), s.block.busy = false →
    Sys2Proof.core.run 8 { s with inputs := loadXEvents i v ++ s.inputs } =
      .next { s with block := { s.block with x := s.block.x.set i.val v } }

/-- R38: `CMD` reads the last accepted word, and only an acceptance or reset changes it. -/
def Obligations.CmdLastChangesOnlyByAcceptance : Prop :=
  ∀ s : State, hostRead 0x000 s = .next { s with readData := some s.block.cmdLast } ∧
    ∀ (t : State) (e : Event), onEvent e s = .next t → t.block.cmdLast ≠ s.block.cmdLast →
      e = .reset ∨ ∃ (w : Word) (i : Instr), portAccess e = some (0x000, .write 4 w) ∧ ready s.block ∧
        decodeWord w = .command i ∧ t.block.cmdLast = w ∧ t.block.busy = true

/-- R30, R32, R67, R103, R230: an operand register changes only by reset, by the completion of a command that names
it as a destination, or by a performed write of its own window words while the engine is idle. -/
def Obligations.OperandRegistersChangeOnlyByTheirWriters : Prop :=
  ∀ (s t : State) (e : Event) (r : Reg), onEvent e s = .next t → readX t.block.x r ≠ readX s.block.x r →
    e = .reset ∨
    ((e = .engine ∨ e = .completion) ∧ t.block.engine = .idle ∧ t.block.done = true ∧
      ∃ cur p n, s.block.engine = .busy cur p n ∧ r ∈ p.writes.map Prod.fst) ∨
    (s.block.busy = false ∧ ∃ (off : Offset) (v : Word), portAccess e = some (off, .write 4 v) ∧
      0x100 + 32 * r.val ≤ off.toNat ∧ off.toNat < 0x100 + 32 * r.val + 32)

/-- R48, R215: `irq` follows the pending bits and the enables at once. -/
def Obligations.InterruptIsALevel : Prop :=
  ∀ (s : State) (v : Word),
    (∃ t, hostWrite 0x008 v s = .next t ∧
      irq t.block = ((s.block.done && v.getLsbD 0) || (s.block.err && v.getLsbD 1))) ∧
    (∃ t, hostWrite 0x004 v s = .next t ∧
      irq t.block = ((s.block.done && !v.getLsbD 1 && s.block.doneIE) ||
        (s.block.err && !v.getLsbD 2 && s.block.errIE))) ∧
    (∀ cur p n, s.block.engine = .busy cur p n → ∃ t, onEvent .completion s = .next t ∧
      irq t.block = (s.block.doneIE || (s.block.err && s.block.errIE)))

/-! ## Reset and invariants -/

/-- R51, R230: the reset event, whatever is in flight; and `State.reset` is that block. -/
def Obligations.ResetClearsTheBlock : Prop :=
  ∀ s : State, ∃ t, onEvent .reset s = .next t ∧ t.inputs = s.inputs ∧ t.block = State.reset.block ∧
    (∀ i : Reg, readX t.block.x i = 0) ∧ t.block.cmdLast = 0 ∧ t.block.busy = false ∧ t.block.engine = .idle ∧
    t.block.done = false ∧ t.block.err = false ∧ t.block.dropped = false ∧ t.block.errCode = 0 ∧
    t.block.errInfo = 0 ∧ t.block.doneIE = false ∧ t.block.errIE = false ∧ t.block.steps = 0 ∧
    irq t.block = false

/-- The invariant holds at reset. -/
def Obligations.ResetMeetsTheInvariant : Prop := BlockInv State.reset.block

/-- Every step keeps the invariant: the error record agrees with its code, the command in flight is legal and its
pending results are those of the registers as they stand, `CMD_LAST` is a legal word, `STEPS` is 0 or 255. -/
def Obligations.StepsKeepTheInvariant : Prop :=
  ∀ s t : State, BlockInv s.block → step s = .next t → BlockInv t.block

/-! ## The life of a command -/

/-- R101: acceptance, for every well-formed command. -/
def Obligations.AcceptanceLatchesTheOperands : Prop :=
  ∀ (s : State) (i : Instr), i.wellFormed = true → ready s.block →
    exec i s = .next { s with block := { s.block with
      cmdLast := encode i
      done := false
      engine := .busy (encode i) (effectOf i s.block.x) (Config.lat i.opcode) } } ∧
    1 ≤ Config.lat i.opcode

/-- R103: each engine step decrements, and the one that reaches 0 commits every write at once. -/
def Obligations.EngineStepsCountDownAndCommit : Prop :=
  ∀ (s : State) (cur : Word) (p : Pending) (n : Nat),
    (s.block.engine = .busy cur p (n + 2) →
      onEvent .engine s = .next { s with block := { s.block with engine := .busy cur p (n + 1) } }) ∧
    (s.block.engine = .busy cur p 1 →
      onEvent .engine s = .next { s with block := { s.block with
        x := p.writes.foldl (fun x w => x.set w.1.val w.2) s.block.x
        steps := BitVec.ofNat 32 p.steps
        done := true
        engine := .idle } })

/-- R106: every accepted command completes exactly `LAT(op)` engine steps after acceptance, and changes no operand
register, `STEPS` or `DONE` before. -/
def Obligations.CommandsCompleteAfterExactlyLatSteps : Prop :=
  ∀ (s a : State) (i : Instr), i.wellFormed = true → ready s.block → exec i s = .next a →
    (∀ k < Config.lat i.opcode, ∃ t, afterEngineSteps k a = .next t ∧ t.block.x = s.block.x ∧
      t.block.steps = s.block.steps ∧ t.block.done = false ∧ t.block.busy = true) ∧
    ∃ t, afterEngineSteps (Config.lat i.opcode) a = .next t ∧ t.inputs = s.inputs ∧ t.block.busy = false ∧
      t.block.done = true ∧ t.block.x = commitWrites (effectOf i s.block.x).writes s.block.x ∧
      t.block.steps = BitVec.ofNat 32 (effectOf i s.block.x).steps

/-- R69, R103: the completion event is the remaining engine steps, and it is what happens when no event waits (the
model's choice of the engine's turn, assumption 4). -/
def Obligations.CompletionIsTheRemainingEngineSteps : Prop :=
  ∀ (s : State) (cur : Word) (p : Pending) (n : Nat), s.block.engine = .busy cur p n → 1 ≤ n →
    afterEngineSteps n s = onEvent .completion s ∧
    (s.inputs = [] → step s = onEvent .completion s)

/-- R101, R106, R205, R206: whatever the host does, short of reset, a command in flight goes on undisturbed: its
results, the registers, `CMD_LAST` and `STEPS` stay, and only engine steps count (the completion event, the model's
own, is left out: assumption 4). -/
def Obligations.CommandInFlightIsUndisturbed : Prop :=
  ∀ (s : State) (cur : Word) (p : Pending) (n : Nat) (evs rest : List Event),
    s.block.engine = .busy cur p n → .reset ∉ evs → .completion ∉ evs → evs.count .engine < n →
    ∃ t, Sys2Proof.core.run evs.length { s with inputs := evs ++ rest } = .next t ∧ t.inputs = rest ∧
      t.block.engine = .busy cur p (n - evs.count .engine) ∧ t.block.x = s.block.x ∧
      t.block.cmdLast = s.block.cmdLast ∧ t.block.steps = s.block.steps

/-- R106, R241: a command in flight completes after finitely many events, whatever they are, unless reset
intervenes, and commits the results latched at its acceptance (weak fairness by the model's turn for the engine,
assumption 4). -/
def Obligations.BusyEngineEventuallyCompletes : Prop :=
  ∀ (s : State) (cur : Word) (p : Pending) (n : Nat), s.block.engine = .busy cur p n → .reset ∉ s.inputs →
    ∃ k t, k ≤ s.inputs.length + 1 ∧ Sys2Proof.core.run k s = .next t ∧ t.block.engine = .idle ∧
      t.block.done = true ∧ t.block.x = commitWrites p.writes s.block.x ∧
      t.block.steps = BitVec.ofNat 32 p.steps

/-- R105, R138, R239: constant time at the interface. Two machines that differ in operand values only, registers,
pending results and the data of operand writes still to come, show the same `STATUS`, `irq`, `CMD_LAST`, `ERRINFO`,
`STEPS` and remaining engine steps after every event. -/
def Obligations.PublicBehaviourIgnoresOperandValues : Prop :=
  ∀ (s t : State) (k : Nat), publicView s = publicView t →
    ∃ s' t', Sys2Proof.core.run k s = .next s' ∧ Sys2Proof.core.run k t = .next t' ∧
      publicView s' = publicView t' ∧ statusWord s'.block = statusWord t'.block ∧ irq s'.block = irq t'.block

/-! ## The commands -/

/-- R107. -/
def Obligations.NopChangesOnlyTheLifeCycleBits : Prop :=
  ∀ s : State, ready s.block →
    exec .nop s = .next (accepted .nop [] 0 s) ∧
    afterEngineSteps (Config.lat .nop) (accepted .nop [] 0 s) = .next (completed .nop s.block.x 0 s)

/-- R140: the canonical product of bits 254:0 of the sources, in `x[RD]` and nowhere else. -/
def Obligations.FmulWritesTheCanonicalProduct : Prop :=
  ∀ (s : State) (rd rs1 rs2 : Reg), ready s.block → ∃ v : XWord,
    v.toNat = ((readX s.block.x rs1).toNat % 2 ^ 255) * ((readX s.block.x rs2).toNat % 2 ^ 255)
      % (2 ^ 255 - 19) ∧
    exec (.fmul rd rs1 rs2) s = .next (accepted (.fmul rd rs1 rs2) [(rd, v)] 0 s) ∧
    afterEngineSteps (Config.lat .fmul) (accepted (.fmul rd rs1 rs2) [(rd, v)] 0 s) =
      .next (completed (.fmul rd rs1 rs2) (s.block.x.set rd.val v) 0 s)

/-- R141: the canonical residue of bits 254:0 of the source. -/
def Obligations.FredWritesTheCanonicalResidue : Prop :=
  ∀ (s : State) (rd rs1 : Reg), ready s.block → ∃ v : XWord,
    v.toNat = (readX s.block.x rs1).toNat % 2 ^ 255 % (2 ^ 255 - 19) ∧
    exec (.fred rd rs1) s = .next (accepted (.fred rd rs1) [(rd, v)] 0 s) ∧
    afterEngineSteps (Config.lat .fred) (accepted (.fred rd rs1) [(rd, v)] 0 s) =
      .next (completed (.fred rd rs1) (s.block.x.set rd.val v) 0 s)

/-- R142: the two raw words change places when bit `k` of `x[RS2]` is 1, and nothing changes when it is 0. -/
def Obligations.CswapExchangesWhenTheBitIsOne : Prop :=
  ∀ (s : State) (rd rs1 rs2 : Reg) (k : BitVec 8), ready s.block →
    let a := readX s.block.x rd
    let b := readX s.block.x rs1
    let bit := (readX s.block.x rs2).getLsbD k.toNat
    let ws := [(rd, if bit then b else a), (rs1, if bit then a else b)]
    exec (.cswap rd rs1 rs2 k) s = .next (accepted (.cswap rd rs1 rs2 k) ws 0 s) ∧
    afterEngineSteps (Config.lat .cswap) (accepted (.cswap rd rs1 rs2 k) ws 0 s) =
      .next (completed (.cswap rd rs1 rs2 k)
        (if bit then (s.block.x.set rd.val b).set rs1.val a else s.block.x) 0 s)

/-- R180, R181: bits 2:0 and 255 of the copy cleared, bit 254 set, every other bit the source's. -/
def Obligations.ClampWritesTheClampedCopy : Prop :=
  ∀ (s : State) (rd rs1 : Reg), ready s.block → ∃ v : XWord,
    (∀ k < 256, v.getLsbD k =
      if k < 3 ∨ k = 255 then false else if k = 254 then true else (readX s.block.x rs1).getLsbD k) ∧
    exec (.clamp rd rs1) s = .next (accepted (.clamp rd rs1) [(rd, v)] 0 s) ∧
    afterEngineSteps (Config.lat .clamp) (accepted (.clamp rd rs1) [(rd, v)] 0 s) =
      .next (completed (.clamp rd rs1) (s.block.x.set rd.val v) 0 s)

/-- R164: X in `x[RD]`, Z in `x[RS3]`, `STEPS` 255; the destinations may be sources. -/
def Obligations.LadderWritesTheProjectivePair : Prop :=
  ∀ (s : State) (rd rs1 rs2 rs3 : Reg), ready s.block → rd ≠ rs3 → ∃ X Z : XWord,
    X.toNat = (ladder (readX s.block.x rs1) (readX s.block.x rs2)).1 ∧
    Z.toNat = (ladder (readX s.block.x rs1) (readX s.block.x rs2)).2 ∧
    exec (.ladder rd rs1 rs2 rs3) s = .next (accepted (.ladder rd rs1 rs2 rs3) [(rd, X), (rs3, Z)] 255 s) ∧
    afterEngineSteps (Config.lat .ladder) (accepted (.ladder rd rs1 rs2 rs3) [(rd, X), (rs3, Z)] 255 s) =
      .next (completed (.ladder rd rs1 rs2 rs3) ((s.block.x.set rd.val X).set rs3.val Z) 255 s)

/-- R165: `X * Z^(p-2) mod p` of the ladder on the clamped copy of the scalar; the scalar register is not
changed unless it is `x[RD]`. -/
def Obligations.SmulWritesTheScalarMultiple : Prop :=
  ∀ (s : State) (rd rs1 rs2 : Reg), ready s.block → ∃ v : XWord,
    v.toNat = (ladder (clamp (readX s.block.x rs1)) (readX s.block.x rs2)).1 *
      (ladder (clamp (readX s.block.x rs1)) (readX s.block.x rs2)).2 ^ (prime - 2) % prime ∧
    exec (.smul rd rs1 rs2) s = .next (accepted (.smul rd rs1 rs2) [(rd, v)] 255 s) ∧
    afterEngineSteps (Config.lat .smul) (accepted (.smul rd rs1 rs2) [(rd, v)] 255 s) =
      .next (completed (.smul rd rs1 rs2) (s.block.x.set rd.val v) 255 s)

/-- R33: no command's results depend on a register that is not one of its sources, and it writes its destinations
only. -/
def Obligations.CommandsTouchOnlyTheirOperands : Prop :=
  ∀ (i : Instr) (x y : Regs), (∀ r ∈ sourcesOf i, readX x r = readX y r) →
    effectOf i x = effectOf i y ∧ (effectOf i x).writes.map Prod.fst = destinationsOf i

/-- R122, R124: every result of a field command is canonical, whatever its operands. -/
def Obligations.FieldResultsAreCanonical : Prop :=
  ∀ (i : Instr) (x : Regs), i.opcode ∈ [Opcode.fmul, Opcode.fred, Opcode.ladder, Opcode.smul] →
    ∀ w ∈ (effectOf i x).writes, w.2.toNat < 2 ^ 255 - 19

/-- R180 to R182: a clamped scalar lies in `[2^254, 2^255)`, is a multiple of 8 and keeps bits 253 to 3, as R180
derives from its pseudocode; clamping again changes nothing. -/
def Obligations.ClampedScalarsHaveTheirShape : Prop :=
  ∀ w : XWord, 2 ^ 254 ≤ (clamp w).toNat ∧ (clamp w).toNat < 2 ^ 255 ∧ (clamp w).toNat % 8 = 0 ∧
    (∀ k, 3 ≤ k → k ≤ 253 → (clamp w).getLsbD k = w.getLsbD k) ∧ clamp (clamp w) = clamp w

/-- R165, R182: scalars that differ in bits 0 to 2, 254 and 255 only, clamped at rest or not, give one `SMUL`
result. -/
def Obligations.SmulIgnoresTheClampedBits : Prop :=
  ∀ s s' u : XWord, (∀ k, 3 ≤ k → k ≤ 253 → s.getLsbD k = s'.getLsbD k) →
    scalarMultiply s u = scalarMultiply s' u ∧ scalarMultiply (clamp s) u = scalarMultiply s u

/-- R162: the ladder reads bits 254:0 of the scalar, and the u-coordinate as a residue of its bits 254:0. -/
def Obligations.LadderReadsItsOperandsModuloP : Prop :=
  ∀ s s' u u' : XWord, (∀ k < 255, s.getLsbD k = s'.getLsbD k) →
    (u.toNat % 2 ^ 255) % (2 ^ 255 - 19) = (u'.toNat % 2 ^ 255) % (2 ^ 255 - 19) →
    ladder s u = ladder s' u'

/-- R164, R165: a scalar whose bits 254:0 are 0 gives the identity; a u-coordinate that is 0 mod p gives `Z = 0`,
and then `SMUL` gives 0. -/
def Obligations.DegenerateLadderInputsHaveTheirResults : Prop :=
  ∀ s u : XWord,
    (s.toNat % 2 ^ 255 = 0 → ladder s u = (1, 0)) ∧
    ((u.toNat % 2 ^ 255) % (2 ^ 255 - 19) = 0 → (ladder s u).2 = 0 ∧ scalarMultiply s u = 0)

/-! ## The reference datapath -/

/-- R127: 16 limbs in `[0, 2^16)`, limb `i` bits `16i+15:16i` and limb 15 bits 254:240, with the value `val(w)`. -/
def Obligations.UnpackedLimbsHaveTheValue : Prop :=
  ∀ w : XWord, limbValue (unpackL w) = (w.toNat % 2 ^ 255 : Nat) ∧ reducedLimbs (unpackL w) ∧
    (∀ x ∈ unpackL w, 0 ≤ x ∧ x < 2 ^ 16) ∧
    (∀ i < 15, (unpackL w)[i]? = some ((w.extractLsb' (16 * i) 16).toNat : Int)) ∧
    (unpackL w)[15]? = some ((w.extractLsb' 240 15).toNat : Int)

/-- R128 to R132, R137: carrying, adding, subtracting, multiplying and squaring compute what their names say
modulo p, for limbs of any size. -/
def Obligations.LimbPrimitivesKeepTheResidue : Prop :=
  ∀ a b : List Int, a.length = 16 → b.length = 16 →
    limbValue (carryL a) % (prime : Int) = limbValue a % (prime : Int) ∧
    limbValue (addL a b) = limbValue a + limbValue b ∧
    limbValue (subL a b) = limbValue a - limbValue b ∧
    limbValue (mulL a b) % (prime : Int) = limbValue a * limbValue b % (prime : Int) ∧
    limbValue (sqrL a) % (prime : Int) = limbValue a ^ 2 % (prime : Int)

/-- R131, R136: with multiplier inputs of magnitude at most `2^18` (any sum or difference of two products or
unpacked words) no accumulator leaves the signed 64-bit range, and with `2^17` none reaches `2^44`; the product's
limbs are reduced again. The bound `2^18` is the model's, since sums can exceed R136's `2^17` by a little
(assumption 12). -/
def Obligations.AccumulatorsStayInSixtyFourBits : Prop :=
  (∀ a b : List Int, boundedLimbs (2 ^ 18) a → boundedLimbs (2 ^ 18) b →
    (∀ x ∈ mulPoly a b ++ foldTop (mulPoly a b), -(2 ^ 63) ≤ x ∧ x < 2 ^ 63) ∧ reducedLimbs (mulL a b)) ∧
  (∀ a b : List Int, boundedLimbs (2 ^ 17) a → boundedLimbs (2 ^ 17) b →
    ∀ x ∈ foldTop (mulPoly a b), -(2 ^ 44) < x ∧ x < 2 ^ 44) ∧
  (∀ a b : List Int, reducedLimbs a → reducedLimbs b →
    boundedLimbs (2 ^ 18) (addL a b) ∧ boundedLimbs (2 ^ 18) (subL a b))

/-- R135: the masked exchange of limbs in the signed 64-bit range, negative ones too. -/
def Obligations.MaskedExchangeIsExact : Prop :=
  ∀ (bit : Bool) (a b : List Int), a.length = b.length →
    (∀ x ∈ a ++ b, -(2 ^ 63) ≤ x ∧ x < 2 ^ 63) →
    cswapL bit a b = if bit then (b, a) else (a, b)

/-- R133: `pack_L` of reduced limbs is the canonical encoding of their value. -/
def Obligations.PackIsTheCanonicalEncoding : Prop :=
  ∀ l : List Int, reducedLimbs l →
    (packL l).length = 32 ∧ xwordOfBytes (packL l) = enc (canon (limbValue l))

/-- R134: `inv_L` is the Fermat power modulo p. -/
def Obligations.LimbInverseIsTheFermatPower : Prop :=
  ∀ a : List Int, a.length = 16 →
    limbValue (inverseL a) % (prime : Int) = limbValue a ^ (prime - 2) % (prime : Int)

/-- R123, R140, R141: the datapath gives the words of `FMUL` and `FRED`, for all operands. -/
def Obligations.DatapathComputesFmulAndFred : Prop :=
  ∀ a b : XWord, datapathFmul a b = enc (canon ((val a : Int) * (val b : Int))) ∧
    datapathFred a = enc (canon (val a : Int))

/-- R123, R137, R163, R164: the fixed sequence of limb operations gives the words of `LADDER`, for all operands. -/
def Obligations.DatapathComputesTheLadder : Prop :=
  ∀ s u : XWord, datapathLadder s u = (enc (ladder s u).1, enc (ladder s u).2)

/-- R123, R134, R165: the ladder, the inversion chain and the final product give the word of `SMUL`, for all
operands. -/
def Obligations.DatapathComputesSmul : Prop :=
  ∀ s u : XWord, datapathSmul s u = enc (scalarMultiply s u)

/-- R134, R163, R241: the operation counts of the fixed sequences, which no operand enters. -/
def Obligations.OperationCountsAreFixed : Prop :=
  opCounts ladderOps = (512, 1020, 1020, 1020, 1530) ∧ opCounts inverseOps = (0, 0, 0, 254, 252) ∧
  opCounts smulOps = (512, 1020, 1020, 1020 + 254, 1530 + 253)
end

