-- ==== Sys2Proof/Laws/Datapath.lean ====
section
/-! SUPPORT. Values and lengths of limb vectors, and the storage of the reference datapath. -/

namespace Sys2Proof.Machine

/-! ## Storage -/

@[simp] theorem Storage.get_set_same (st : Storage) (v : List Int) (k : Slot) : (st.set v k).get k = v := by
  cases k <;> rfl

theorem Storage.get_set_other (st : Storage) (v : List Int) {k j : Slot} (h : k ≠ j) :
    (st.set v k).get j = st.get j := by
  cases k <;> cases j <;> first | rfl | exact absurd rfl h

@[simp] theorem Storage.set_swap (st : Storage) (v : List Int) (k : Slot) : (st.set v k).swap = st.swap := by
  cases k <;> rfl

theorem runLimbOps_append (s : XWord) (l r : List LimbOp) (st : Storage) :
    runLimbOps s (l ++ r) st = runLimbOps s r (runLimbOps s l st) := List.foldl_append

theorem runLimbOps_cons (s : XWord) (op : LimbOp) (ops : List LimbOp) (st : Storage) :
    runLimbOps s (op :: ops) st = runLimbOps s ops (runLimbOp s st op) := rfl

/-! ## Lengths -/

theorem carryChain_length (c : Int) (l : List Int) : (carryChain c l).1.length = l.length := by
  induction l generalizing c with
  | nil => rfl
  | cons a l ih => simp [carryChain, ih]

@[simp] theorem addToHead_length (c : Int) (l : List Int) : (addToHead c l).length = l.length := by
  cases l <;> rfl

@[simp] theorem carryL_length (l : List Int) : (carryL l).length = l.length := by
  simp [carryL, carryChain_length]

theorem addPoly_length (a b : List Int) : (addPoly a b).length = max a.length b.length := by
  induction a, b using addPoly.induct with
  | case1 b => simp [addPoly]
  | case2 a h => cases a <;> simp [addPoly]
  | case3 a as b bs ih => simp [addPoly, ih]

/-! ## Values -/

theorem limbValue_addToHead (c : Int) (l : List Int) (h : l ≠ []) :
    limbValue (addToHead c l) = limbValue l + c := by
  cases l with
  | nil => exact absurd rfl h
  | cons a l => simp [addToHead, limbValue]; omega

/-- A carry pass moves value between limbs and out of the last one; none is lost (R128). -/
theorem limbValue_carryChain (c : Int) (l : List Int) :
    limbValue (carryChain c l).1 + 2 ^ (16 * l.length) * (carryChain c l).2 = limbValue l + c := by
  induction l generalizing c with
  | nil => simp [carryChain, limbValue]
  | cons a l ih =>
    have h := ih ((a + c) / 2 ^ 16)
    have hd := Int.emod_add_mul_ediv (a + c) (2 ^ 16)
    have hp : (2 : Int) ^ (16 * (a :: l).length) = 2 ^ 16 * 2 ^ (16 * l.length) := by
      rw [← pow_add]; congr 1; simp; omega
    simp only [carryChain, limbValue, hp]
    linear_combination (2 ^ 16 : Int) * h + hd

theorem limbValue_map_mul (k : Int) (l : List Int) : limbValue (l.map (k * ·)) = k * limbValue l := by
  induction l with
  | nil => simp [limbValue]
  | cons a l ih => simp [limbValue, ih]; ring

theorem limbValue_addPoly (a b : List Int) : limbValue (addPoly a b) = limbValue a + limbValue b := by
  induction a, b using addPoly.induct with
  | case1 b => simp [addPoly, limbValue]
  | case2 a h => cases a <;> simp [addPoly, limbValue]
  | case3 a as b bs ih => simp only [addPoly, limbValue, ih]; ring

/-- The schoolbook product has the product of the values (R131). -/
theorem limbValue_mulPoly (a b : List Int) : limbValue (mulPoly a b) = limbValue a * limbValue b := by
  induction a with
  | nil => simp [mulPoly, limbValue]
  | cons x a ih => simp only [mulPoly, limbValue_addPoly, limbValue_map_mul, limbValue, ih]; ring

end Sys2Proof.Machine
end

