-- ==== Sys2Proof/Laws/Encoding.lean ====
section
/-! SUPPORT. The fields of an assembled command word. -/

namespace Sys2Proof

section fields
variable (op : BitVec 4) (rd rs1 rs2 rs3 : Reg) (k : BitVec 8)

/-- The bits of an assembled word, from the least significant field up. -/
theorem formatC_getLsbD (n : Nat) (hn : n < 32) : (formatC op rd rs1 rs2 rs3 k).getLsbD n =
    if n < 4 then op.getLsbD n else if n < 8 then false
    else if n < 11 then (regBits rd).getLsbD (n - 8) else if n < 12 then false
    else if n < 15 then (regBits rs1).getLsbD (n - 12) else if n < 16 then false
    else if n < 19 then (regBits rs2).getLsbD (n - 16) else if n < 20 then false
    else if n < 23 then (regBits rs3).getLsbD (n - 20) else if n < 24 then false
    else k.getLsbD (n - 24) := by
  have out : ∀ {m} (v : BitVec m) (i : Nat), m ≤ i → v.getLsbD i = false := fun v i h => BitVec.getLsbD_of_ge v i h
  simp only [formatC, BitVec.getLsbD_or, BitVec.getLsbD_shiftLeft, BitVec.getLsbD_setWidth, hn, decide_true,
    Bool.true_and]
  have lt : ∀ c, n - c < 32 := fun c => by omega
  simp only [lt, decide_true, Bool.true_and]
  split_ifs <;>
    simp (disch := omega) only [decide_eq_true, decide_eq_false, out, Bool.not_true, Bool.not_false, Bool.false_and,
      Bool.true_and, Bool.or_false, Bool.false_or]

theorem regBits_toFin (r : Reg) : (regBits r).toFin = r := by
  apply Fin.ext
  simp [regBits]

@[simp] theorem opField_formatC : opField (formatC op rd rs1 rs2 rs3 k) = op := by
  apply BitVec.eq_of_getLsbD_eq
  intro n hn
  have h32 : n < 32 := by omega
  simp only [opField, BitVec.getLsbD_extractLsb', Nat.zero_add, hn, decide_true, Bool.true_and]
  rw [formatC_getLsbD _ _ _ _ _ _ n h32, if_pos hn]

/-- A 3-bit field that the layout places at `start` reads back as the register it was assembled from (R81, R82). -/
theorem field_formatC (start : Nat) (r : Reg)
    (h : ∀ n, n < 3 → (formatC op rd rs1 rs2 rs3 k).getLsbD (start + n) = (regBits r).getLsbD n) :
    ((formatC op rd rs1 rs2 rs3 k).extractLsb' start 3).toFin = r := by
  rw [← regBits_toFin r]
  congr 1
  apply BitVec.eq_of_getLsbD_eq
  intro n hn
  simp [hn, h n hn]

@[simp] theorem rdField_formatC : rdField (formatC op rd rs1 rs2 rs3 k) = rd := by
  refine field_formatC op rd rs1 rs2 rs3 k 8 rd fun n hn => ?_
  rw [formatC_getLsbD op rd rs1 rs2 rs3 k (8 + n) (by omega)]
  split_ifs <;> first | omega | rw [Nat.add_sub_cancel_left]

@[simp] theorem rs1Field_formatC : rs1Field (formatC op rd rs1 rs2 rs3 k) = rs1 := by
  refine field_formatC op rd rs1 rs2 rs3 k 12 rs1 fun n hn => ?_
  rw [formatC_getLsbD op rd rs1 rs2 rs3 k (12 + n) (by omega)]
  split_ifs <;> first | omega | rw [Nat.add_sub_cancel_left]

@[simp] theorem rs2Field_formatC : rs2Field (formatC op rd rs1 rs2 rs3 k) = rs2 := by
  refine field_formatC op rd rs1 rs2 rs3 k 16 rs2 fun n hn => ?_
  rw [formatC_getLsbD op rd rs1 rs2 rs3 k (16 + n) (by omega)]
  split_ifs <;> first | omega | rw [Nat.add_sub_cancel_left]

@[simp] theorem rs3Field_formatC : rs3Field (formatC op rd rs1 rs2 rs3 k) = rs3 := by
  refine field_formatC op rd rs1 rs2 rs3 k 20 rs3 fun n hn => ?_
  rw [formatC_getLsbD op rd rs1 rs2 rs3 k (20 + n) (by omega)]
  split_ifs <;> first | omega | rw [Nat.add_sub_cancel_left]

@[simp] theorem imm8Field_formatC : imm8Field (formatC op rd rs1 rs2 rs3 k) = k := by
  apply BitVec.eq_of_getLsbD_eq
  intro n hn
  rw [imm8Field, BitVec.getLsbD_extractLsb', formatC_getLsbD op rd rs1 rs2 rs3 k (24 + n) (by omega)]
  split_ifs <;> first | omega | simp [hn]

end fields

@[simp] theorem opcodeOf?_code (op : Opcode) : opcodeOf? op.code = some op := by cases op <;> rfl

/-- The reserved bits of an assembled word are 0 (R81). -/
theorem reservedBits_formatC (op : BitVec 4) (rd rs1 rs2 rs3 : Reg) (k : BitVec 8) (n : Nat)
    (h : n ∈ [4, 5, 6, 7, 11, 15, 19, 23]) : (formatC op rd rs1 rs2 rs3 k).getLsbD n = false := by
  simp only [List.mem_cons, List.not_mem_nil, or_false] at h
  rw [formatC_getLsbD _ _ _ _ _ _ _ (by omega)]
  rcases h with rfl | rfl | rfl | rfl | rfl | rfl | rfl | rfl <;> rfl

/-- An opcode found is the one with that `OP` value (R84). -/
theorem opcodeOf?_eq_some {c : BitVec 4} {op : Opcode} (h : opcodeOf? c = some op) : c = op.code := by
  unfold opcodeOf? at h
  split_ifs at h <;> cases h <;> assumption

/-- `OP` of an encoded command (R84). -/
@[simp] theorem opField_encode (i : Instr) : opField (encode i) = i.opcode.code := by
  cases i <;> simp [encode, Instr.opcode]

/-- A word whose reserved bits are 0 is assembled from its fields (R81). -/
theorem formatC_of_fields (w : Word) (h : ∀ n ∈ [4, 5, 6, 7, 11, 15, 19, 23], w.getLsbD n = false) :
    formatC (opField w) (rdField w) (rs1Field w) (rs2Field w) (rs3Field w) (imm8Field w) = w := by
  have hb : ∀ v : BitVec 3, regBits v.toFin = v := by decide
  apply BitVec.eq_of_getLsbD_eq
  intro n hn
  rw [formatC_getLsbD _ _ _ _ _ _ _ hn]
  simp only [rdField, rs1Field, rs2Field, rs3Field, hb, opField, imm8Field, BitVec.getLsbD_extractLsb']
  split_ifs <;>
    (try simp (disch := omega) only [decide_eq_true, Bool.true_and, Nat.zero_add, Nat.add_sub_cancel'])
  all_goals (symm; apply h; simp; omega)

/-- A bit that a row fixes has the row's value (R85). -/
theorem getLsbD_of_masked {w m v : Word} (h : w &&& m = v) (n : Nat) (hm : m.getLsbD n = true) :
    w.getLsbD n = v.getLsbD n := by
  rw [← h]; simp [hm]

end Sys2Proof
end

