-- ==== Sys2Proof/Laws/State.lean ====
section
/-! SUPPORT. What each block update leaves in each field, so that no proof unfolds an update. -/

namespace Sys2Proof.Machine

section raiseError
variable (c : ErrorCode) (w : Word) (b : Block)

@[simp] theorem raiseError_x : (raiseError c w b).x = b.x := by unfold raiseError; split <;> rfl
@[simp] theorem raiseError_cmdLast : (raiseError c w b).cmdLast = b.cmdLast := by unfold raiseError; split <;> rfl
@[simp] theorem raiseError_done : (raiseError c w b).done = b.done := by unfold raiseError; split <;> rfl
@[simp] theorem raiseError_doneIE : (raiseError c w b).doneIE = b.doneIE := by unfold raiseError; split <;> rfl
@[simp] theorem raiseError_errIE : (raiseError c w b).errIE = b.errIE := by unfold raiseError; split <;> rfl
@[simp] theorem raiseError_steps : (raiseError c w b).steps = b.steps := by unfold raiseError; split <;> rfl
@[simp] theorem raiseError_engine : (raiseError c w b).engine = b.engine := by unfold raiseError; split <;> rfl
@[simp] theorem raiseError_busy : (raiseError c w b).busy = b.busy := by simp [Block.busy]
@[simp] theorem raiseError_err : (raiseError c w b).err = true := by unfold raiseError; split <;> simp_all

end raiseError

section dropCommand
variable (b : Block)

@[simp] theorem dropCommand_x : (dropCommand b).x = b.x := rfl
@[simp] theorem dropCommand_cmdLast : (dropCommand b).cmdLast = b.cmdLast := rfl
@[simp] theorem dropCommand_done : (dropCommand b).done = b.done := rfl
@[simp] theorem dropCommand_err : (dropCommand b).err = b.err := rfl
@[simp] theorem dropCommand_errCode : (dropCommand b).errCode = b.errCode := rfl
@[simp] theorem dropCommand_errInfo : (dropCommand b).errInfo = b.errInfo := rfl
@[simp] theorem dropCommand_dropped : (dropCommand b).dropped = true := rfl
@[simp] theorem dropCommand_doneIE : (dropCommand b).doneIE = b.doneIE := rfl
@[simp] theorem dropCommand_errIE : (dropCommand b).errIE = b.errIE := rfl
@[simp] theorem dropCommand_steps : (dropCommand b).steps = b.steps := rfl
@[simp] theorem dropCommand_engine : (dropCommand b).engine = b.engine := rfl
@[simp] theorem dropCommand_busy : (dropCommand b).busy = b.busy := rfl

end dropCommand

section clearError
variable (b : Block)

@[simp] theorem clearError_x : (clearError b).x = b.x := rfl
@[simp] theorem clearError_cmdLast : (clearError b).cmdLast = b.cmdLast := rfl
@[simp] theorem clearError_done : (clearError b).done = b.done := rfl
@[simp] theorem clearError_err : (clearError b).err = false := rfl
@[simp] theorem clearError_errCode : (clearError b).errCode = 0 := rfl
@[simp] theorem clearError_errInfo : (clearError b).errInfo = 0 := rfl
@[simp] theorem clearError_dropped : (clearError b).dropped = b.dropped := rfl
@[simp] theorem clearError_doneIE : (clearError b).doneIE = b.doneIE := rfl
@[simp] theorem clearError_errIE : (clearError b).errIE = b.errIE := rfl
@[simp] theorem clearError_steps : (clearError b).steps = b.steps := rfl
@[simp] theorem clearError_engine : (clearError b).engine = b.engine := rfl
@[simp] theorem clearError_busy : (clearError b).busy = b.busy := rfl

end clearError

section accept
variable (w : Word) (op : Opcode) (p : Pending) (b : Block)

@[simp] theorem accept_x : (accept w op p b).x = b.x := rfl
@[simp] theorem accept_cmdLast : (accept w op p b).cmdLast = w := rfl
@[simp] theorem accept_done : (accept w op p b).done = false := rfl
@[simp] theorem accept_err : (accept w op p b).err = b.err := rfl
@[simp] theorem accept_errCode : (accept w op p b).errCode = b.errCode := rfl
@[simp] theorem accept_errInfo : (accept w op p b).errInfo = b.errInfo := rfl
@[simp] theorem accept_dropped : (accept w op p b).dropped = b.dropped := rfl
@[simp] theorem accept_doneIE : (accept w op p b).doneIE = b.doneIE := rfl
@[simp] theorem accept_errIE : (accept w op p b).errIE = b.errIE := rfl
@[simp] theorem accept_steps : (accept w op p b).steps = b.steps := rfl
@[simp] theorem accept_engine : (accept w op p b).engine = .busy w p (Config.lat op) := rfl
@[simp] theorem accept_busy : (accept w op p b).busy = true := rfl

end accept

section complete
variable (p : Pending) (b : Block)

@[simp] theorem complete_x : (complete p b).x = commitWrites p.writes b.x := rfl
@[simp] theorem complete_cmdLast : (complete p b).cmdLast = b.cmdLast := rfl
@[simp] theorem complete_done : (complete p b).done = true := rfl
@[simp] theorem complete_err : (complete p b).err = b.err := rfl
@[simp] theorem complete_errCode : (complete p b).errCode = b.errCode := rfl
@[simp] theorem complete_errInfo : (complete p b).errInfo = b.errInfo := rfl
@[simp] theorem complete_dropped : (complete p b).dropped = b.dropped := rfl
@[simp] theorem complete_doneIE : (complete p b).doneIE = b.doneIE := rfl
@[simp] theorem complete_errIE : (complete p b).errIE = b.errIE := rfl
@[simp] theorem complete_steps : (complete p b).steps = BitVec.ofNat 32 p.steps := rfl
@[simp] theorem complete_engine : (complete p b).engine = .idle := rfl
@[simp] theorem complete_busy : (complete p b).busy = false := rfl

end complete

section writeStatus
variable (v : Word) (b : Block)

@[simp] theorem writeStatus_x : (writeStatus v b).x = b.x := by
  unfold writeStatus; simp only []; repeat (first | rfl | split)
@[simp] theorem writeStatus_cmdLast : (writeStatus v b).cmdLast = b.cmdLast := by
  unfold writeStatus; simp only []; repeat (first | rfl | split)
@[simp] theorem writeStatus_done : (writeStatus v b).done = (b.done && !v.getLsbD 1) := by
  unfold writeStatus clearError
  cases v.getLsbD 1 <;> cases v.getLsbD 2 <;> cases v.getLsbD 3 <;> simp
@[simp] theorem writeStatus_err : (writeStatus v b).err = (b.err && !v.getLsbD 2) := by
  unfold writeStatus clearError
  cases v.getLsbD 1 <;> cases v.getLsbD 2 <;> cases v.getLsbD 3 <;> simp
@[simp] theorem writeStatus_dropped : (writeStatus v b).dropped = (b.dropped && !v.getLsbD 3) := by
  unfold writeStatus clearError
  cases v.getLsbD 1 <;> cases v.getLsbD 2 <;> cases v.getLsbD 3 <;> simp
@[simp] theorem writeStatus_errCode :
    (writeStatus v b).errCode = if v.getLsbD 2 then 0 else b.errCode := by
  unfold writeStatus clearError
  cases v.getLsbD 1 <;> cases v.getLsbD 2 <;> cases v.getLsbD 3 <;> rfl
@[simp] theorem writeStatus_errInfo :
    (writeStatus v b).errInfo = if v.getLsbD 2 then 0 else b.errInfo := by
  unfold writeStatus clearError
  cases v.getLsbD 1 <;> cases v.getLsbD 2 <;> cases v.getLsbD 3 <;> rfl
@[simp] theorem writeStatus_doneIE : (writeStatus v b).doneIE = b.doneIE := by
  unfold writeStatus; simp only []; repeat (first | rfl | split)
@[simp] theorem writeStatus_errIE : (writeStatus v b).errIE = b.errIE := by
  unfold writeStatus; simp only []; repeat (first | rfl | split)
@[simp] theorem writeStatus_steps : (writeStatus v b).steps = b.steps := by
  unfold writeStatus; simp only []; repeat (first | rfl | split)
@[simp] theorem writeStatus_engine : (writeStatus v b).engine = b.engine := by
  unfold writeStatus; simp only []; repeat (first | rfl | split)
@[simp] theorem writeStatus_busy : (writeStatus v b).busy = b.busy := by simp [Block.busy]

end writeStatus

section writeInten
variable (v : Word) (b : Block)

@[simp] theorem writeInten_x : (writeInten v b).x = b.x := rfl
@[simp] theorem writeInten_cmdLast : (writeInten v b).cmdLast = b.cmdLast := rfl
@[simp] theorem writeInten_done : (writeInten v b).done = b.done := rfl
@[simp] theorem writeInten_err : (writeInten v b).err = b.err := rfl
@[simp] theorem writeInten_errCode : (writeInten v b).errCode = b.errCode := rfl
@[simp] theorem writeInten_errInfo : (writeInten v b).errInfo = b.errInfo := rfl
@[simp] theorem writeInten_dropped : (writeInten v b).dropped = b.dropped := rfl
@[simp] theorem writeInten_doneIE : (writeInten v b).doneIE = v.getLsbD 0 := rfl
@[simp] theorem writeInten_errIE : (writeInten v b).errIE = v.getLsbD 1 := rfl
@[simp] theorem writeInten_steps : (writeInten v b).steps = b.steps := rfl
@[simp] theorem writeInten_engine : (writeInten v b).engine = b.engine := rfl
@[simp] theorem writeInten_busy : (writeInten v b).busy = b.busy := rfl

end writeInten

section busy
variable (b : Block)

theorem busy_eq_false_iff : b.busy = false ↔ b.engine = .idle := by
  unfold Block.busy; split <;> simp_all

theorem busy_eq_true_iff : b.busy = true ↔ ∃ cur p r, b.engine = .busy cur p r := by
  unfold Block.busy; split <;> simp_all

end busy

end Sys2Proof.Machine
end

