-- ==== Sys2Proof/Laws/Ops.lean ====
section
/-! SUPPORT. Everything each shared operation can do, said once. -/

namespace Sys2Proof.Machine

/-! ## Operand registers -/

@[simp] theorem readX_writeX_same (x : Regs) (i : Reg) (v : XWord) : readX (writeX x i v) i = v := by
  simp [readX, writeX]

theorem readX_writeX_other (x : Regs) {i j : Reg} (v : XWord) (h : i ≠ j) :
    readX (writeX x i v) j = readX x j := by
  simp [readX, writeX, Fin.val_inj, h]

theorem readX_writeX (x : Regs) (i j : Reg) (v : XWord) :
    readX (writeX x i v) j = if i = j then v else readX x j := by
  by_cases h : i = j
  · subst h; simp
  · simp [readX_writeX_other x v h, h]

theorem regs_ext {x y : Regs} (h : ∀ i, readX x i = readX y i) : x = y := by
  apply Vector.ext
  intro i hi
  exact h ⟨i, hi⟩

@[simp] theorem commitWrites_nil (x : Regs) : commitWrites [] x = x := rfl
@[simp] theorem commitWrites_cons (i : Reg) (v : XWord) (ws : List (Reg × XWord)) (x : Regs) :
    commitWrites ((i, v) :: ws) x = commitWrites ws (writeX x i v) := rfl

/-- A register that no write of the list names keeps its value. -/
theorem readX_commitWrites_other (ws : List (Reg × XWord)) (x : Regs) (j : Reg)
    (h : j ∉ ws.map Prod.fst) : readX (commitWrites ws x) j = readX x j := by
  induction ws generalizing x with
  | nil => rfl
  | cons w ws ih =>
    obtain ⟨i, v⟩ := w
    simp only [List.map_cons, List.mem_cons, not_or] at h
    rw [commitWrites_cons, ih _ h.2, readX_writeX_other _ _ (Ne.symm h.1)]

theorem wordOf_setWord_bit (w : XWord) (j : Fin 8) (v : Word) (k : Nat) (hk : k < 256) :
    (setWord w j v).getLsbD k =
      if 32 * j.val ≤ k ∧ k < 32 * j.val + 32 then v.getLsbD (k - 32 * j.val) else w.getLsbD k := by
  have hm : (0xFFFFFFFF : XWord) = (BitVec.allOnes 32).setWidth 256 := by decide
  simp only [setWord, hm, BitVec.getLsbD_or, BitVec.getLsbD_and, BitVec.getLsbD_not, BitVec.getLsbD_shiftLeft,
    BitVec.getLsbD_setWidth, BitVec.getLsbD_allOnes]
  by_cases h1 : k < 32 * j.val
  · have h2 : ¬ (32 * j.val ≤ k ∧ k < 32 * j.val + 32) := by omega
    simp [h1, h2, hk]
  · by_cases h2 : k < 32 * j.val + 32
    · have h3 : 32 * j.val ≤ k ∧ k < 32 * j.val + 32 := by omega
      have h4 : k - 32 * j.val < 256 := by omega
      have h5 : k - 32 * j.val < 32 := by omega
      simp [h1, h3, hk, h4, h5]
    · have h3 : ¬ (32 * j.val ≤ k ∧ k < 32 * j.val + 32) := by omega
      have h5 : ¬ k - 32 * j.val < 32 := by omega
      have h6 : v.getLsbD (k - 32 * j.val) = false := BitVec.getLsbD_of_ge v _ (by omega)
      simp [h1, h3, hk, h5, h6]

@[simp] theorem wordOf_setWord_same (w : XWord) (j : Fin 8) (v : Word) : wordOf (setWord w j v) j = v := by
  apply BitVec.eq_of_getLsbD_eq
  intro k hk
  have : 32 * j.val + k < 256 := by have := j.isLt; omega
  simp only [wordOf, BitVec.getLsbD_extractLsb', hk, decide_true, Bool.true_and]
  rw [wordOf_setWord_bit _ _ _ _ this, if_pos (by omega)]
  congr 1; omega

theorem wordOf_setWord_other (w : XWord) {i j : Fin 8} (v : Word) (h : i ≠ j) :
    wordOf (setWord w i v) j = wordOf w j := by
  apply BitVec.eq_of_getLsbD_eq
  intro k hk
  have h0 : 32 * j.val + k < 256 := by have := j.isLt; omega
  have h1 : i.val ≠ j.val := fun e => h (Fin.ext e)
  simp only [wordOf, BitVec.getLsbD_extractLsb', hk, decide_true, Bool.true_and]
  rw [wordOf_setWord_bit _ _ _ _ h0, if_neg (by omega)]

@[simp] theorem isOperandOffset_operandOffset (i : Reg) (j : Fin 8) : isOperandOffset (operandOffset i j) = true := by
  revert i j; decide
@[simp] theorem operandReg_operandOffset (i : Reg) (j : Fin 8) : operandReg (operandOffset i j) = i := by
  revert i j; decide
@[simp] theorem operandWord_operandOffset (i : Reg) (j : Fin 8) : operandWord (operandOffset i j) = j := by
  revert i j; decide
@[simp] theorem performed_operandOffset (i : Reg) (j : Fin 8) : performed (operandOffset i j) 4 = true := by
  revert i j; decide
@[simp] theorem operandOffset_ne_cmd (i : Reg) (j : Fin 8) : operandOffset i j ≠ 0 := by
  revert i j; decide

/-! ## Errors -/

theorem raiseError_of_noError (c : ErrorCode) (w : Word) (b : Block) (h : b.err = false) :
    raiseError c w b = { b with err := true, errCode := errorBits c, errInfo := w } := by
  simp [raiseError, h]

theorem raiseError_of_error (c : ErrorCode) (w : Word) (b : Block) (h : b.err = true) :
    raiseError c w b = { b with dropped := true } := by
  simp [raiseError, h]

/-! ## The life of a command -/

/-- What the checks before decoding do (R213 steps 2 and 3). -/
theorem issueChecks_cases (w : Word) (b passed : Block) :
    (b.err = true ∧ issueChecks w b passed = dropCommand b) ∨
    (b.err = false ∧ b.busy = true ∧ issueChecks w b passed = raiseError .cmdBusy w b) ∨
    (b.err = false ∧ b.busy = false ∧ issueChecks w b passed = passed) := by
  unfold issueChecks
  cases b.err <;> cases b.busy <;> simp

theorem issueChecks_of_error (w : Word) (b passed : Block) (h : b.err = true) :
    issueChecks w b passed = dropCommand b := by
  simp [issueChecks, h]

theorem issueChecks_of_busy (w : Word) (b passed : Block) (h : b.err = false) (hb : b.busy = true) :
    issueChecks w b passed = raiseError .cmdBusy w b := by
  simp [issueChecks, h, hb]

theorem issueChecks_of_ready (w : Word) (b passed : Block) (h : b.err = false) (hb : b.busy = false) :
    issueChecks w b passed = passed := by
  simp [issueChecks, h, hb]

theorem lat_pos (op : Opcode) : 1 ≤ Config.lat op := by simp [Config.lat]

@[simp] theorem engineStep_idle (b : Block) (h : b.engine = .idle) : engineStep b = b := by simp [engineStep, h]

theorem engineStep_more (b : Block) {cur : Word} {p : Pending} {r : Nat} (h : b.engine = .busy cur p (r + 2)) :
    engineStep b = { b with engine := .busy cur p (r + 1) } := by
  simp [engineStep, h]

theorem engineStep_last (b : Block) {cur : Word} {p : Pending} {r : Nat} (h : b.engine = .busy cur p r)
    (hr : r ≤ 1) : engineStep b = complete p b := by
  have : r - 1 = 0 := by omega
  simp [engineStep, h, this]

@[simp] theorem finishCommand_idle (b : Block) (h : b.engine = .idle) : finishCommand b = b := by
  simp [finishCommand, h]

theorem finishCommand_busy (b : Block) {cur : Word} {p : Pending} {r : Nat} (h : b.engine = .busy cur p r) :
    finishCommand b = complete p b := by
  simp [finishCommand, h]

/-! ## The register window -/

/-- What a performed write outside `CMD` can do. -/
theorem writeRegister_cases (off : Offset) (v : Word) (b : Block) :
    (off = 0x004 ∧ writeRegister off v b = writeStatus v b) ∨
    (off = 0x008 ∧ writeRegister off v b = writeInten v b) ∨
    (isOperandOffset off = true ∧ b.busy = true ∧
      writeRegister off v b = raiseError .operandBusy (zext32 off) b) ∨
    (isOperandOffset off = true ∧ b.busy = false ∧
      writeRegister off v b =
        { b with
          x := writeX b.x (operandReg off) (setWord (readX b.x (operandReg off)) (operandWord off) v) }) ∨
    (off ≠ 0x004 ∧ off ≠ 0x008 ∧ isOperandOffset off = false ∧ writeRegister off v b = b) := by
  unfold writeRegister writeOperand
  by_cases h4 : off = 0x004
  · exact .inl ⟨h4, by rw [if_pos h4]⟩
  by_cases h8 : off = 0x008
  · exact .inr (.inl ⟨h8, by rw [if_neg h4, if_pos h8]⟩)
  rw [if_neg h4, if_neg h8]
  cases ho : isOperandOffset off with
  | false => exact .inr (.inr (.inr (.inr ⟨h4, h8, rfl, rfl⟩)))
  | true => cases hb : b.busy <;> simp

end Sys2Proof.Machine
end

