-- ==== Sys2Proof/Laws/Exec.lean ====
section
/-! SUPPORT. What `exec` and an event can do, said once: every command is issued with its own effect, and a
`LADDER` whose destinations coincide is rejected. -/

namespace Sys2Proof.Machine

/-- The meaning of a well-formed command is its issue, with the results of the registers as they stand. -/
theorem exec_of_wellFormed (i : Instr) (s : State) (h : i.wellFormed = true) :
    exec i s = .next (issueCommand i (effectOf i s.block.x) s) := by
  cases i with
  | ladder rd rs1 rs2 rs3 =>
    have : rd ≠ rs3 := by simpa [Instr.wellFormed] using h
    simp [exec, execLadder, effectOf, this]
  | _ => rfl

/-- The one ill-formed command is rejected with `OPERAND_CONFLICT` (R207). -/
theorem exec_of_illFormed (i : Instr) (s : State) (h : i.wellFormed = false) :
    exec i s = .next (rejectWord .operandConflict (encode i) s) := by
  cases i with
  | ladder rd rs1 rs2 rs3 =>
    have : rd = rs3 := by simpa [Instr.wellFormed] using h
    simp [exec, execLadder, this]
  | _ => simp [Instr.wellFormed] at h

/-- `exec` answers a next state that differs from `s` in the block only. -/
theorem exec_next (i : Instr) (s : State) : ∃ b, exec i s = .next { s with block := b } := by
  cases h : i.wellFormed with
  | true => exact ⟨_, exec_of_wellFormed i s h⟩
  | false => exact ⟨_, exec_of_illFormed i s h⟩

/-- What `exec` does to a block that is ready for a command. -/
theorem exec_of_ready (i : Instr) (s : State) (h : i.wellFormed = true) (he : s.block.err = false)
    (hb : s.block.busy = false) :
    exec i s = .next { s with block := accept (encode i) i.opcode (effectOf i s.block.x) s.block } := by
  rw [exec_of_wellFormed i s h]
  simp [issueCommand, issueChecks_of_ready, he, hb]

/-- A performed 4-byte read. -/
theorem accessWindow_read (off : Offset) (s : State) (h : off.toNat % 4 = 0) :
    accessWindow off (.read 4) s = .next { s with readData := some (windowWord off s.block) } := by
  simp [accessWindow, performed, h]

/-- A performed 4-byte write of `CMD`. -/
theorem accessWindow_writeCommand (w : Word) (s : State) :
    accessWindow 0x000 (.write 4 w) s = writeCommand w s := by
  simp [accessWindow, performed]

/-- A performed 4-byte write of another offset. -/
theorem accessWindow_write (off : Offset) (v : Word) (s : State) (h : off.toNat % 4 = 0) (h0 : off ≠ 0x000) :
    accessWindow off (.write 4 v) s = .next { s with block := writeRegister off v s.block } := by
  have h0' : ¬ off = 0#12 := h0
  simp [accessWindow, performed, h, h0']

/-- An access that is not performed. -/
theorem accessWindow_rejected (off : Offset) (n : Nat) (v : BitVec (8 * n)) (s : State)
    (h : performed off n = false) :
    accessWindow off (.read n) s = .next { rejectAccess off s with readData := some 0 } ∧
    accessWindow off (.write n v) s = .next (rejectAccess off s) := by
  simp [accessWindow, h]

theorem step_cons (s : State) (e : Event) (rest : List Event) :
    step { s with inputs := e :: rest } = deliver e { s with inputs := rest } := rfl

theorem step_nil (s : State) (h : s.inputs = []) : step s = .next { s with block := finishCommand s.block } := by
  simp [step, h, deliver]

end Sys2Proof.Machine
end

