-- ==== Sys2Proof/Laws/Field.lean ====
section
/-! SUPPORT. Values of field elements: ranges of `val`, `canon` and `enc`, and the exponent the inversion chain
computes. -/

namespace Sys2Proof.Machine

theorem prime_pos : 0 < prime := by decide

theorem prime_lt : prime < 2 ^ 256 := by decide

theorem val_eq (w : XWord) : val w = w.toNat % 2 ^ 255 := by
  simp [val, BitVec.extractLsb'_toNat]

theorem val_lt (w : XWord) : val w < 2 ^ 255 := (w.extractLsb' 0 255).isLt

theorem canon_cast (v : Int) : (canon v : Int) = v % (prime : Int) :=
  Int.toNat_of_nonneg (Int.emod_nonneg v (by have := prime_pos; omega))

theorem canon_lt (v : Int) : canon v < prime := by
  have h : v % (prime : Int) < prime := Int.emod_lt_of_pos v (by have := prime_pos; omega)
  have := canon_cast v
  omega

theorem canon_natCast (n : Nat) : canon (n : Int) = n % prime := by
  have h := canon_cast (n : Int)
  rw [← Int.natCast_mod] at h
  exact_mod_cast h

theorem enc_toNat (u : Nat) (h : u < 2 ^ 256) : (enc u).toNat = u := by
  rw [enc, BitVec.toNat_ofNat, Nat.mod_eq_of_lt h]

theorem enc_canon_toNat (v : Int) : (enc (canon v)).toNat = canon v :=
  enc_toNat _ (Nat.lt_trans (canon_lt v) prime_lt)

/-- The exponent a chain of bits adds up to, from `e` on. -/
def chainExponent (e : Nat) (bits : List Bool) : Nat := bits.foldl (fun e bit => 2 * e + bit.toNat) e

/-- A square-and-multiply chain computes the power its bits spell. -/
theorem chain_is_power (a e : Nat) (bits : List Bool) :
    bits.foldl (fun c bit => if bit then c * c % prime * a % prime else c * c % prime) (a ^ e % prime)
      = a ^ chainExponent e bits % prime := by
  induction bits generalizing e with
  | nil => rfl
  | cons bit bits ih =>
    have key : (if bit then (a ^ e % prime) * (a ^ e % prime) % prime * a % prime
        else (a ^ e % prime) * (a ^ e % prime) % prime) = a ^ (2 * e + bit.toNat) % prime := by
      have sq : (a ^ e % prime) * (a ^ e % prime) % prime = a ^ (2 * e) % prime := by
        rw [← Nat.mul_mod, ← pow_add, two_mul]
      cases bit with
      | false => simpa using sq
      | true =>
        rw [if_pos rfl, sq, Nat.mod_mul_mod, ← pow_succ]
        rfl
    rw [List.foldl_cons, key, ih]
    rfl

theorem chainExponent_fermatBits : chainExponent 1 fermatBits = prime - 2 := by decide +kernel

end Sys2Proof.Machine
end

