-- ==== Sys2Proof/Laws/PerInstr.lean ====
section
/-! SUPPORT. Facts about every command as syntax, one lemma per constructor: the word a command is encoded to
lies in its row of the opcode table, `w & mask = match` (R85). -/

namespace Sys2Proof.Laws.EncodesInRow

/-- The encoded word has the fixed bits of its opcode's row (R85). -/
def Statement (i : Instr) : Prop := encode i &&& i.opcode.maskWord = i.opcode.matchWord

theorem nop : Statement .nop := by unfold Statement; decide

theorem fmul (rd rs1 rs2 : Reg) : Statement (.fmul rd rs1 rs2) := by
  unfold Statement; revert rd rs1 rs2; decide +kernel

theorem fred (rd rs1 : Reg) : Statement (.fred rd rs1) := by
  unfold Statement; revert rd rs1; decide +kernel

/-- The only row with a free immediate: the bits are compared one by one. -/
theorem cswap (rd rs1 rs2 : Reg) (k : BitVec 8) : Statement (.cswap rd rs1 rs2 k) := by
  unfold Statement
  apply BitVec.eq_of_getLsbD_eq
  intro n hn
  simp only [BitVec.getLsbD_and, encode, formatC_getLsbD _ _ _ _ _ _ n hn, Instr.opcode, Opcode.maskWord, Opcode.matchWord,
    Opcode.code]
  have hbits : ∀ n : Fin 32, (0x00F888FF : Word).getLsbD n.val =
      decide (n.val < 8 ∨ n.val = 11 ∨ n.val = 15 ∨ (19 ≤ n.val ∧ n.val < 24)) := by decide
  have h3 : ∀ n : Fin 32, (0x00000003 : Word).getLsbD n.val =
      if n.val < 4 then (0x3 : BitVec 4).getLsbD n.val else false := by decide
  rw [hbits ⟨n, hn⟩, h3 ⟨n, hn⟩]
  have h0 : ∀ m, (regBits 0).getLsbD m = false := fun m => BitVec.getLsbD_zero
  simp only [h0]
  by_cases c : n < 8 ∨ n = 11 ∨ n = 15 ∨ (19 ≤ n ∧ n < 24)
  · simp only [c, decide_true, Bool.and_true]
    split_ifs <;> first | rfl | omega
  · simp only [c, decide_false, Bool.and_false]
    split_ifs <;> first | rfl | omega

theorem clamp (rd rs1 : Reg) : Statement (.clamp rd rs1) := by
  unfold Statement; revert rd rs1; decide +kernel

theorem ladder (rd rs1 rs2 rs3 : Reg) : Statement (.ladder rd rs1 rs2 rs3) := by
  unfold Statement; revert rd rs1 rs2 rs3; decide +kernel

theorem smul (rd rs1 rs2 : Reg) : Statement (.smul rd rs1 rs2) := by
  unfold Statement; revert rd rs1 rs2; decide +kernel

/-- Every command's word lies in its row (R85). -/
theorem holds (i : Instr) : Statement i := by
  cases i with
  | nop => exact nop
  | fmul a b c => exact fmul a b c
  | fred a b => exact fred a b
  | cswap a b c k => exact cswap a b c k
  | clamp a b => exact clamp a b
  | ladder a b c d => exact ladder a b c d
  | smul a b c => exact smul a b c

end Sys2Proof.Laws.EncodesInRow
end

