-- ==== Sys2Proof/Laws/Step.lean ====
section
/-! SUPPORT. Everything an access, an event and a step can do, said once. -/

namespace Sys2Proof.Machine

/-- What a host access at a window offset can do: a performed read, a rejected access, a command word, a register
write. -/
theorem accessWindow_cases (off : Offset) (a : Access) (s t : State) (h : accessWindow off a s = .next t) :
    (∃ n, a = .read n ∧ n = 4 ∧ off.toNat % 4 = 0 ∧
      t = { s with readData := some (windowWord off s.block) }) ∨
    (∃ n, a = .read n ∧ performed off n = false ∧ t = { rejectAccess off s with readData := some 0 }) ∨
    (∃ n v, a = .write n v ∧ performed off n = false ∧ t = rejectAccess off s) ∨
    (∃ w : Word, a = .write 4 w ∧ off = 0x000 ∧
      ((∃ c, decodeWord w = .reject c ∧ t = rejectWord c w s) ∨
       (∃ i, decodeWord w = .command i ∧ exec i s = .next t))) ∨
    (∃ w : Word, a = .write 4 w ∧ off ≠ 0x000 ∧ off.toNat % 4 = 0 ∧
      t = { s with block := writeRegister off w s.block }) := by
  cases a with
  | read n =>
    simp only [accessWindow] at h
    split at h <;> injection h with h <;> subst h
    · have hp : n = 4 ∧ off.toNat % 4 = 0 := by simpa [performed] using ‹performed off n = true›
      exact .inl ⟨n, rfl, hp.1, hp.2, rfl⟩
    · exact .inr (.inl ⟨n, rfl, by simp_all, rfl⟩)
  | write n v =>
    simp only [accessWindow] at h
    split at h
    · obtain ⟨rfl, h4⟩ : n = 4 ∧ off.toNat % 4 = 0 := by simpa [performed] using ‹performed off n = true›
      rw [show BitVec.setWidth 32 v = v from BitVec.setWidth_eq v] at h
      split at h
      · refine .inr (.inr (.inr (.inl ⟨v, rfl, ‹_›, ?_⟩)))
        unfold writeCommand at h
        split at h
        · injection h with h; subst h; exact .inl ⟨_, ‹_›, rfl⟩
        · exact .inr ⟨_, ‹_›, h⟩
      · injection h with h; subst h
        exact .inr (.inr (.inr (.inr ⟨v, rfl, ‹_›, h4, rfl⟩)))
    · injection h with h; subst h
      exact .inr (.inr (.inl ⟨n, v, rfl, by simp_all, rfl⟩))

/-- An event that brings an access is that access. -/
theorem deliver_of_portAccess {e : Event} {off : Offset} {a : Access} (s : State)
    (h : portAccess e = some (off, a)) : deliver e s = accessWindow off a s := by
  cases e with
  | window o b => simp only [portAccess, Option.some.injEq, Prod.mk.injEq] at h; obtain ⟨rfl, rfl⟩ := h; rfl
  | host addr b =>
    simp only [portAccess, Option.map_eq_some_iff, Prod.mk.injEq] at h
    obtain ⟨o, ho, rfl, rfl⟩ := h
    simp [deliver, ho]
  | engine => simp [portAccess] at h
  | completion => simp [portAccess] at h
  | reset => simp [portAccess] at h

/-- What an event can do: an access, an address outside the window, an engine step, the completion, reset. -/
theorem deliver_cases (e : Event) (s t : State) (h : deliver e s = .next t) :
    (∃ off a, portAccess e = some (off, a) ∧ accessWindow off a s = .next t) ∨
    (portAccess e = none ∧ (∃ addr a, e = .host addr a) ∧ t = s) ∨
    (e = .engine ∧ t = { s with block := engineStep s.block }) ∨
    (e = .completion ∧ t = { s with block := finishCommand s.block }) ∨
    (e = .reset ∧ t = { s with block := Block.reset }) := by
  cases hp : portAccess e with
  | some oa =>
    obtain ⟨off, a⟩ := oa
    exact .inl ⟨off, a, rfl, (deliver_of_portAccess s hp).symm.trans h⟩
  | none =>
    cases e with
    | window o a => simp [portAccess] at hp
    | host addr a =>
      simp only [portAccess, Option.map_eq_none_iff] at hp
      simp only [deliver, hp] at h
      injection h with h
      exact .inr (.inl ⟨rfl, ⟨addr, a, rfl⟩, h.symm⟩)
    | engine => simp only [deliver] at h; injection h with h; exact .inr (.inr (.inl ⟨rfl, h.symm⟩))
    | completion =>
      simp only [deliver] at h; injection h with h; exact .inr (.inr (.inr (.inl ⟨rfl, h.symm⟩)))
    | reset => simp only [deliver] at h; injection h with h; exact .inr (.inr (.inr (.inr ⟨rfl, h.symm⟩)))

/-- A run's first step, when it answers a next state. -/
theorem run_succ (k : Nat) {s t : State} (h : step s = .next t) :
    Sys2Proof.core.run (k + 1) s = Sys2Proof.core.run k t := by
  simp only [Host.Core.run]
  rw [show Sys2Proof.core.step s = .next t from h]

@[simp] theorem run_zero (s : State) : Sys2Proof.core.run 0 s = .next s := rfl

end Sys2Proof.Machine
end

