-- ==== Sys2Proof/Tests/Slice0.lean ====
section
/-! SUPPORT. Checks of the model against the words, tables and vectors of the spec, and for every obligation with
hypotheses a state and operands that meet them. Expected values are the spec's (30_encoding.md R85, R89;
95_test_vectors.md L1 and L2), not the model's own answers. -/

namespace Sys2Proof.Tests
open Sys2Proof.Machine Sys2Proof.Claims

/-! ## States for the tests -/

/-- The state after reset, with these operand registers loaded. -/
def loaded (ws : List (Reg × XWord)) : State :=
  { State.reset with block := { Block.reset with x := commitWrites ws Block.reset.x } }

/-- The state after reset with `fmul x2, x0, x1` in flight, its result 81, `n` engine steps left. -/
def inFlight (n : Nat) : State :=
  { State.reset with block := { Block.reset with
      cmdLast := 0x00010201, engine := .busy 0x00010201 { writes := [(2, 81)], steps := 0 } n } }

/-- The state after reset with an error recorded: `ILLEGAL_OPCODE`, word 7. -/
def failed : State :=
  { State.reset with block := { Block.reset with err := true, errCode := 1, errInfo := 7 } }

/-- What the engine holds after a step, when a command is in flight. -/
def pendingOf (o : Host.Outcome State Fault Refusal) : Option (Word × Pending) :=
  match o with
  | .next t => match t.block.engine with
    | .idle => none
    | .busy cur p _ => some (cur, p)
  | .fault _ => none
  | .refused _ => none

/-- `STATUS`, `ERRINFO` and `CMD_LAST` after a step. -/
def recordOf (o : Host.Outcome State Fault Refusal) : Option (Word × Word × Word) :=
  match o with
  | .next t => some (statusWord t.block, t.block.errInfo, t.block.cmdLast)
  | .fault _ => none
  | .refused _ => none

/-- The data of a read. -/
def dataOf (o : Host.Outcome State Fault Refusal) : Option Word :=
  match o with
  | .next t => t.readData
  | .fault _ => none
  | .refused _ => none

/-- What the engine holds after the very next instruction of `s` is the command word `w`. -/
def issued (w : Nat) (s : State) : Option (Word × Pending) := pendingOf (step (s.withFetchWord 32 w))

/-! ## Well-formedness and decoding -/

/-- The one ill-formed shape, `ladder x2, x2, x0, x1`, and its word (R207; L2.2). -/
theorem test_ladder_one_destination_ill_formed :
    (Instr.ladder 2 0 1 2).wellFormed = false ∧ (Instr.ladder 2 0 1 3).wellFormed = true ∧
    decodeWord 0x00210205 = .reject .operandConflict ∧ decodeTableWord 32 0x00210205 = none := by decide

/-- Words written out from R85: `IMM8 | RS3 | RS2 | RS1 | RD | OP` (R81, R89; L2.1). -/
theorem test_decode_nop : decodeWord 0b00000000000000000000000000000000#32 = .command .nop := by decide
theorem test_decode_fmul : decodeWord 0b00000000000001010011010000000001#32 = .command (.fmul 4 3 5) := by decide
theorem test_decode_fred : decodeWord 0b00000000000000000010000000000010#32 = .command (.fred 0 2) := by decide
theorem test_decode_cswap : decodeWord 0b11111110000000000010000100000011#32 = .command (.cswap 1 2 0 254) := by
  decide
theorem test_decode_clamp : decodeWord 0b00000000000000000000001100000100#32 = .command (.clamp 3 0) := by decide
theorem test_decode_ladder : decodeWord 0b00000000010100010011010000000101#32 = .command (.ladder 4 3 1 5) := by
  decide
theorem test_decode_smul : decodeWord 0b00000000000001000000010100000110#32 = .command (.smul 5 0 4) := by decide

/-- Rejected words (L2.2): the opcode before the reserved bits, and these before the conflict. -/
theorem test_decode_rejects :
    decodeWord 0xFFFFFFFF = .reject .illegalOpcode ∧ decodeWord 0x00000007 = .reject .illegalOpcode ∧
    decodeWord 0x00000010 = .reject .reservedField ∧ decodeWord 0x80000000 = .reject .reservedField ∧
    decodeWord 0x00000801 = .reject .reservedField ∧ decodeWord 0x00080002 = .reject .reservedField ∧
    decodeWord 0x00100003 = .reject .reservedField ∧ decodeWord 0x00008004 = .reject .reservedField ∧
    decodeWord 0x01000005 = .reject .reservedField ∧ decodeWord 0x00000005 = .reject .operandConflict := by decide

/-- The host's words for a row, and an operand of 0 bits above it. -/
theorem test_decode_table_word :
    decodeTableWord 32 0x00310205 = some (.ladder 2 0 1 3) ∧ decodeTableWord 32 0x00000000 = some .nop ∧
    decodeTableWord 32 0x0000000F = none := by decide

/-! ## The commands (L2.4 to L2.7) -/

theorem test_nop : issued 0x00000000 (loaded []) = some (0, { writes := [], steps := 0 }) := by decide

/-- `(p-1) * (p-1) = 1` (L2.5). -/
theorem test_fmul : issued 0x00010201 (loaded [(0, 2 ^ 255 - 20), (1, 2 ^ 255 - 20)]) =
    some (0x00010201, { writes := [(2, 1)], steps := 0 }) := by decide +kernel
/-- Bit 255 of both operands is ignored: `18^2 = 324`, which L2.5 writes `4401..00`. -/
theorem test_fmul_ignores_bit_255 :
    effectFmul 2 0 1 (loaded [(0, BitVec.allOnes 256), (1, BitVec.allOnes 256)]).block.x =
      { writes := [(2, 0x144)], steps := 0 } := by decide +kernel

/-- `2^255 + p` is 0, and `p - 1` stays (L2.5). -/
theorem test_fred : issued 0x00000102 (loaded [(0, 2 ^ 255 + (2 ^ 255 - 19))]) =
    some (0x00000102, { writes := [(1, 0)], steps := 0 }) := by decide +kernel
theorem test_fred_canonical : effectFred 1 0 (loaded [(0, 2 ^ 255 - 20)]).block.x =
    { writes := [(1, 2 ^ 255 - 20)], steps := 0 } := by decide +kernel

/-- Bit 255 of `x2` exchanges two raw words (L2.5). -/
theorem test_cswap_bit_255 : issued 0xFF021003 (loaded [(0, BitVec.allOnes 256), (2, 2 ^ 255)]) =
    some (0xFF021003, { writes := [(0, 0), (1, BitVec.allOnes 256)], steps := 0 }) := by decide +kernel
/-- The bit is that of the latched `x0`, which is a destination too (L2.5). -/
theorem test_cswap_aliased : effectCswap 0 1 0 0 (loaded [(0, 1), (1, 2)]).block.x =
    { writes := [(0, 2), (1, 1)], steps := 0 } := by decide +kernel

/-- Alice's scalar of L1.7, clamped (L2.5). -/
theorem test_clamp :
    issued 0x00000304 (loaded [(0, 0x2A2CB91DA5FB77B12A99C0EB872F4CDF4566B25172C1163C7DA518730A6D0777)]) =
      some (0x00000304,
        { writes := [(3, 0x6A2CB91DA5FB77B12A99C0EB872F4CDF4566B25172C1163C7DA518730A6D0770)], steps := 0 }) := by
  decide +kernel
/-- All ones clamp to `f8ff..ff7f` (L1.1). -/
theorem test_clamp_ones : clamp (BitVec.allOnes 256) = 2 ^ 255 - 8 := by decide +kernel

/-- Scalar 9, not clamped, of the point 9: `X` in `x2`, `Z` in `x3` (L2.6). -/
theorem test_ladder :
    effectLadder 2 0 1 3 (loaded [(0, 9), (1, 9)]).block.x =
      { writes := [(2, 0x3952D480944DB140B5FEA9BA74C30188CD758DF7B48B1D009E4943B72D46B9E5),
                   (3, 0x4A9977B71846F91B28E2CF4C0B9A5DBF3BE2647B50E086E598395210D8C30434)], steps := 255 } := by
  decide +kernel
/-- `u = p - 1`, scalar 1: the second destination takes `Z` (L2.6). -/
theorem test_ladder_minus_one :
    effectLadder 0 0 1 1 (loaded [(0, 1), (1, 2 ^ 255 - 20)]).block.x =
      { writes := [(0, 2 ^ 38), (1, 2 ^ 255 - 19 - 2 ^ 38)], steps := 255 } := by decide +kernel

/-- Scalar 9 of the point 9 (L1.3). -/
theorem test_smul :
    effectSmul 2 0 1 (loaded [(0, 9), (1, 9)]).block.x =
      { writes := [(2, 0x7930AE1103E8603C784B85B67BB897789F27B72B3E0B35A1BCD727627A8E2C42)], steps := 255 } := by
  decide +kernel
/-- RFC 7748 §5.2 vector 2, whose `u` has bit 255 set (L1.5). -/
theorem test_smul_rfc7748 :
    effectSmul 0 0 1 (loaded
        [(0, 0xDBA18799E16A42CD401EAE021641BC1F56A7D959126D25A3C67B4D1D4E9664B),
         (1, 0x93A415C749D54CFC3E3CC06F10E7DB312CAE38059D95B7F4D3116878120F21E5)]).block.x =
      { writes := [(0, 0x5779AC7A64F7F8E652A19F79685A598BF873B8B45CE4AD7A7D90E87694DECB95)], steps := 255 } := by
  decide +kernel

/-! ## The block (L2.2 to L2.4) -/

/-- A rejected word is recorded, and nothing is in flight. -/
theorem test_illegal_opcode :
    recordOf (step (State.reset.withFetchWord 32 0xFFFFFFFF)) = some (0x104, 0xFFFFFFFF, 0) := by decide
theorem test_reserved_before_conflict :
    recordOf (step (State.reset.withFetchWord 32 0x01000005)) = some (0x204, 0x01000005, 0) := by decide
theorem test_operand_conflict :
    recordOf (step (State.reset.withFetchWord 32 0x00210205)) = some (0x504, 0x00210205, 0) := by decide
/-- Busy is checked before the opcode; the command goes on. -/
theorem test_cmd_busy : recordOf (hostWrite 0x000 7 (inFlight 1)) = some (0x305, 7, 0x00010201) := by decide
theorem test_operand_busy : recordOf (hostWrite 0x100 5 (inFlight 1)) = some (0x405, 0x100, 0x00010201) := by decide
theorem test_dropped : recordOf (hostWrite 0x000 0 failed) = some (0x10C, 7, 0) := by decide
theorem test_bus_access :
    recordOf (onEvent (.window 0x102 (.write 4 0xDEADBEEF)) State.reset) = some (0x604, 0x102, 0) ∧
    recordOf (onEvent (.window 0x100 (.write 2 0xBEEF)) State.reset) = some (0x604, 0x100, 0) := by decide
/-- Everything is cleared by `W 0x004, 0xE` (L2.2). -/
theorem test_status_clears :
    recordOf (hostWrite 0x004 0xE { failed with block := { failed.block with dropped := true } }) =
      some (0, 0, 0) := by decide
/-- Completion: the result, `DONE`, an idle engine (R103). -/
theorem test_completion : onEvent .completion (inFlight 1) =
    .next { loaded [(2, 81)] with block := { (loaded [(2, 81)]).block with
      cmdLast := 0x00010201, done := true } } := rfl
/-- `LOADX 0, 0102..1f20` then word 7 reads `0x201F1E1D`, and word 0 `0x04030201` (L2.3). -/
theorem test_operand_words :
    dataOf (hostRead 0x11C (loaded [(0, xwordOfBytes ((List.range 32).map fun i => BitVec.ofNat 8 (i + 1)))])) =
      some 0x201F1E1D ∧
    dataOf (hostRead 0x100 (loaded [(0, xwordOfBytes ((List.range 32).map fun i => BitVec.ofNat 8 (i + 1)))])) =
      some 0x04030201 := by decide +kernel
/-- `ERR = 1` and `INTEN = 2` raise `irq` (L2.3). -/
theorem test_irq : irq { failed.block with errIE := true } = true ∧ irq failed.block = false := by decide

/-! ## Witnesses: what each obligation assumes can be met -/

theorem witness_CommandsDecodeBack :
    (Instr.ladder 7 7 7 0).wellFormed = true ∧ (Instr.cswap 7 7 7 255).wellFormed = true := by decide
theorem witness_DecodedWordsEncodeBack : decodeWord 0xFF777703 ≠ .command (.cswap 7 7 7 255) ∧
    decodeWord 0xFF077703 = .command (.cswap 7 7 7 255) := by decide
/-- The boundaries of the three rejections: `OP` 6 and 7, one reserved bit, equal and unequal destinations. -/
theorem witness_RejectedWordsHaveTheirCode :
    decodeWord 0x00000006 = .command (.smul 0 0 0) ∧ decodeWord 0x00000007 = .reject .illegalOpcode ∧
    decodeWord 0x0000000F = .reject .illegalOpcode ∧ decodeWord 0x00100006 = .reject .reservedField ∧
    decodeWord 0x00700705 = .reject .operandConflict ∧ decodeWord 0x00600705 = .command (.ladder 7 0 0 6) := by
  decide
theorem witness_StepRunsTheDecodedCommand : decodeWord 0x00700605 = .command (.ladder 6 0 0 7) := by decide

/-- One state and word for each of the seven clauses; the last three share the state and differ in the word. -/
theorem witness_CommandWriteFollowsTheCheckOrder :
    (3 ≠ 4 ∧ 5 ≠ 4) ∧ failed.block.err = true ∧
    ((inFlight 1).block.err = false ∧ (inFlight 1).block.busy = true) ∧
    (State.reset.block.err = false ∧ State.reset.block.busy = false) ∧
    6 < ((0x00000007 : Word).extractLsb' 0 4).toNat ∧
    ((0x00000016 : Word).extractLsb' 0 4 = Opcode.smul.code ∧
      (0x00000016 : Word) &&& Opcode.smul.maskWord ≠ Opcode.smul.matchWord) ∧
    ((0x00700705 : Word) &&& 0xFF8888FF = 0x00000005 ∧
      (0x00700705 : Word).extractLsb' 8 3 = (0x00700705 : Word).extractLsb' 20 3) ∧
    decodeWord 0x00070706 = .command (.smul 7 0 7) := by decide

/-- The first address behind the window, whatever `BASE` is. -/
theorem witness_HostAddressesReachTheWindowOnly :
    Config.base + 4096 < Config.base ∨ Config.base + 4096 ≤ Config.base + 4096 := .inr (Nat.le_refl _)

/-- One access of each kind that is turned away, with and without an error recorded before. -/
theorem witness_ErrorsArePrecise :
    (turnedAway 0xFFF (.read 4) State.reset.block ∧ turnedAway 0x000 (.write 2 0) failed.block ∧
      turnedAway 0x000 (.write 4 0) failed.block ∧ turnedAway 0x000 (.write 4 0) (inFlight 1).block ∧
      turnedAway 0x000 (.write 4 7) State.reset.block ∧ turnedAway 0x100 (.write 4 5) (inFlight 1).block ∧
      turnedAway 0x1FC (.write 4 5) (inFlight 1).block) ∧
    portAccess (.window 0x1FC (.write 4 5)) = some (0x1FC, .write 4 5) ∧
    ∃ t, onEvent (.window 0x1FC (.write 4 5)) (inFlight 1) = .next t :=
  ⟨⟨by simp [turnedAway], by simp [turnedAway], .inr (.inl ⟨rfl, .inl rfl⟩), .inr (.inl ⟨rfl, .inr (.inl rfl)⟩),
    .inr (.inl ⟨rfl, .inr (.inr ⟨.illegalOpcode, by decide⟩)⟩), .inr (.inr ⟨by decide, by decide, rfl⟩),
    .inr (.inr ⟨by decide, by decide, rfl⟩)⟩, rfl, _, rfl⟩

/-- Kept by another rejected access, and cleared by bit 2 of `STATUS`. -/
theorem witness_FirstErrorIsKeptUntilCleared :
    failed.block.err = true ∧ (∃ t, onEvent (.window 0x001 (.read 4)) failed = .next t ∧ t.block.err = true) ∧
    ∃ t, onEvent (.window 0x004 (.write 4 4)) failed = .next t ∧ t.block.err = false :=
  ⟨rfl, ⟨_, rfl, by decide⟩, _, rfl, by decide⟩

theorem witness_BadAccessIsRejected :
    ¬(3 = 4 ∧ (0x100 : Offset).toNat % 4 = 0) ∧ ¬(4 = 4 ∧ (0xFFF : Offset).toNat % 4 = 0) := by decide
theorem witness_OperandWritesWhileBusyAreDiscarded : (inFlight 1).block.busy = true := rfl
theorem witness_CommandsAreTurnedAwayUnlessReady :
    failed.block.err = true ∧ (inFlight 1).block.err = false ∧ (inFlight 1).block.busy = true := ⟨rfl, rfl, rfl⟩
theorem witness_LadderWithOneDestinationIsRejected : ready State.reset.block := ⟨rfl, rfl⟩
/-- The ends of the two reserved ranges. -/
theorem witness_ReservedOffsetsReadZeroAndIgnoreWrites :
    ∀ off ∈ ([0x014, 0x0FC, 0x200, 0xFFC] : List Offset), off.toNat % 4 = 0 ∧
      ((0x014 ≤ off.toNat ∧ off.toNat ≤ 0x0FF) ∨ 0x200 ≤ off.toNat) := by decide
theorem witness_PerformedReadsHaveNoSideEffect :
    ∀ off ∈ ([0x000, 0x010, 0x100, 0x1FC, 0xFFC] : List Offset), off.toNat % 4 = 0 := by decide
theorem witness_OperandWordsReadAndWrite :
    State.reset.block.busy = false ∧ operandOffset 0 0 = 0x100 ∧ operandOffset 7 7 = 0x1FC := by decide
theorem witness_LoadingEightWordsLoadsTheRegister : (loaded [(7, 5)]).block.busy = false := rfl
/-- An acceptance changes `CMD_LAST`, and reset does. -/
theorem witness_CmdLastChangesOnlyByAcceptance :
    (∃ t, onEvent (.window 0x000 (.write 4 0x00010206)) State.reset = .next t ∧
      t.block.cmdLast ≠ State.reset.block.cmdLast) ∧
    ∃ t, onEvent .reset (inFlight 1) = .next t ∧ t.block.cmdLast ≠ (inFlight 1).block.cmdLast :=
  ⟨⟨_, rfl, by decide⟩, _, rfl, by decide⟩
/-- Reset, a completion and an operand write, each changing a register. -/
theorem witness_OperandRegistersChangeOnlyByTheirWriters :
    (∃ t, onEvent .reset (loaded [(7, 5)]) = .next t ∧ readX t.block.x 7 ≠ readX (loaded [(7, 5)]).block.x 7) ∧
    (∃ t, onEvent .engine (inFlight 1) = .next t ∧ readX t.block.x 2 ≠ readX (inFlight 1).block.x 2) ∧
    (∃ t, onEvent .completion (inFlight 3) = .next t ∧ readX t.block.x 2 ≠ readX (inFlight 3).block.x 2) ∧
    ∃ t, onEvent (.window 0x1FC (.write 4 5)) State.reset = .next t ∧
      readX t.block.x 7 ≠ readX State.reset.block.x 7 :=
  ⟨⟨_, rfl, by decide +kernel⟩, ⟨_, rfl, by decide +kernel⟩, ⟨_, rfl, by decide +kernel⟩, _, rfl, by decide +kernel⟩
theorem witness_InterruptIsALevel : ∃ cur p n, (inFlight 1).block.engine = .busy cur p n := ⟨_, _, _, rfl⟩

/-- A state that meets the invariant with a command in flight, one step before its completion. -/
theorem witness_StepsKeepTheInvariant :
    BlockInv { Block.reset with
      cmdLast := 0x00010201
      engine := .busy 0x00010201 (effectOf (.fmul 2 0 1) Block.reset.x) 1 } ∧
    ∃ t, step { State.reset with block := { Block.reset with
      cmdLast := 0x00010201
      engine := .busy 0x00010201 (effectOf (.fmul 2 0 1) Block.reset.x) 1 } } = .next t := by
  refine ⟨⟨⟨by decide, by decide, by decide, by decide, by decide, by decide, by decide⟩, ?_,
    ⟨.fmul 2 0 1, by decide⟩, .inl rfl⟩, _, rfl⟩
  intro cur p n h
  injection h with h1 h2 h3
  subst h1 h2 h3
  exact ⟨rfl, rfl, .fmul 2 0 1, by decide, rfl, Nat.le_refl 1, lat_pos _⟩

theorem witness_AcceptanceLatchesTheOperands :
    (Instr.ladder 7 7 7 0).wellFormed = true ∧ ready State.reset.block := ⟨rfl, rfl, rfl⟩
theorem witness_EngineStepsCountDownAndCommit :
    (inFlight 2).block.engine = .busy 0x00010201 { writes := [(2, 81)], steps := 0 } (0 + 2) ∧
    (inFlight 1).block.engine = .busy 0x00010201 { writes := [(2, 81)], steps := 0 } 1 := ⟨rfl, rfl⟩
theorem witness_CommandsCompleteAfterExactlyLatSteps :
    (Instr.smul 2 0 1).wellFormed = true ∧ ready State.reset.block ∧
    ∃ a, exec (.smul 2 0 1) State.reset = .next a := ⟨rfl, ⟨rfl, rfl⟩, _, rfl⟩
theorem witness_CompletionIsTheRemainingEngineSteps :
    (∃ cur p, (inFlight 1).block.engine = .busy cur p 1) ∧ (inFlight 1).inputs = [] := ⟨⟨_, _, rfl⟩, rfl⟩
/-- Two engine steps left: an engine step, a command turned away, an operand write turned away. -/
theorem witness_CommandInFlightIsUndisturbed :
    (∃ cur p, (inFlight 2).block.engine = .busy cur p 2) ∧
    Event.reset ∉ [Event.engine, .window 0x000 (.write 4 0), .window 0x100 (.write 4 5)] ∧
    Event.completion ∉ [Event.engine, .window 0x000 (.write 4 0), .window 0x100 (.write 4 5)] ∧
    [Event.engine, .window 0x000 (.write 4 0), .window 0x100 (.write 4 5)].count .engine < 2 :=
  ⟨⟨_, _, rfl⟩, by decide, by decide, by decide⟩
theorem witness_BusyEngineEventuallyCompletes :
    (∃ cur p, (inFlight 3).block.engine = .busy cur p 3) ∧
    Event.reset ∉ ({ inFlight 3 with inputs := [.engine, .window 0x004 (.read 4)] } : State).inputs :=
  ⟨⟨_, _, rfl⟩, by decide⟩
/-- Two states that differ in a register and in the data of an operand write still to come. -/
theorem witness_PublicBehaviourIgnoresOperandValues :
    publicView { loaded [(0, 5)] with inputs := [.window 0x100 (.write 4 1), .engine] } =
      publicView { loaded [(0, 6)] with inputs := [.window 0x100 (.write 4 2), .engine] } ∧
    ({ loaded [(0, 5)] with inputs := [.window 0x100 (.write 4 1), .engine] } : State) ≠
      { loaded [(0, 6)] with inputs := [.window 0x100 (.write 4 2), .engine] } := by decide

/-- What `NopChangesOnlyTheLifeCycleBits`, `FmulWritesTheCanonicalProduct`, `FredWritesTheCanonicalResidue`,
`CswapExchangesWhenTheBitIsOne`, `ClampWritesTheClampedCopy`, `LadderWritesTheProjectivePair` and
`SmulWritesTheScalarMultiple` assume: a ready block, and for `LADDER` two destinations. -/
theorem witness_ready : ready (loaded [(0, 9), (1, 9)]).block ∧ (6 : Reg) ≠ 7 := ⟨⟨rfl, rfl⟩, by decide⟩

/-- Two register files that differ in a register that `fmul x2, x0, x1` does not read. -/
theorem witness_CommandsTouchOnlyTheirOperands :
    (∀ r ∈ sourcesOf (.fmul 2 0 1), readX (loaded [(2, 5)]).block.x r = readX (loaded []).block.x r) ∧
    (loaded [(2, 5)]).block.x ≠ (loaded []).block.x := by decide +kernel
theorem witness_FieldResultsAreCanonical :
    (Instr.fmul 2 0 1).opcode ∈ [Opcode.fmul, Opcode.fred, Opcode.ladder, Opcode.smul] ∧
    ((2 : Reg), (0 : XWord)) ∈ (effectOf (.fmul 2 0 1) Block.reset.x).writes := by decide +kernel
/-- Scalars that differ in bits 0 to 2, 254 and 255. -/
theorem witness_SmulIgnoresTheClampedBits :
    (∀ k, 3 ≤ k → k ≤ 253 → (0 : XWord).getLsbD k = (7 ||| 3 <<< 254 : XWord).getLsbD k) ∧
    (0 : XWord) ≠ (7 ||| 3 <<< 254 : XWord) := by
  have h : ∀ k : Fin 254, 3 ≤ k.val → (0 : XWord).getLsbD k = (7 ||| 3 <<< 254 : XWord).getLsbD k := by
    decide +kernel
  exact ⟨fun k h3 hk => h ⟨k, by omega⟩ h3, by decide +kernel⟩
/-- Scalars that differ in bit 255, and the u-coordinates 9 and `p + 9`. -/
theorem witness_LadderReadsItsOperandsModuloP :
    (∀ k < 255, (0 : XWord).getLsbD k = (2 ^ 255 : XWord).getLsbD k) ∧ (0 : XWord) ≠ 2 ^ 255 ∧
    ((9 : XWord).toNat % 2 ^ 255) % (2 ^ 255 - 19) =
      ((2 ^ 255 - 10 : XWord).toNat % 2 ^ 255) % (2 ^ 255 - 19) ∧ (9 : XWord) ≠ 2 ^ 255 - 10 := by
  have h : ∀ k : Fin 255, (0 : XWord).getLsbD k = (2 ^ 255 : XWord).getLsbD k := by decide +kernel
  exact ⟨fun k hk => h ⟨k, hk⟩, by decide +kernel, by decide +kernel, by decide +kernel⟩
theorem witness_DegenerateLadderInputsHaveTheirResults :
    (2 ^ 255 : XWord).toNat % 2 ^ 255 = 0 ∧ ((2 ^ 255 - 19 : XWord).toNat % 2 ^ 255) % (2 ^ 255 - 19) = 0 := by
  decide +kernel
theorem witness_LimbPrimitivesKeepTheResidue :
    (List.replicate 16 (2 ^ 17 : Int)).length = 16 ∧ (List.replicate 16 (-(2 ^ 17) : Int)).length = 16 := by decide
/-- The extreme limbs of each of the three clauses. -/
theorem witness_AccumulatorsStayInSixtyFourBits :
    boundedLimbs (2 ^ 18) (List.replicate 16 (2 ^ 18)) ∧ boundedLimbs (2 ^ 18) (List.replicate 16 (-(2 ^ 18))) ∧
    boundedLimbs (2 ^ 17) (List.replicate 16 (2 ^ 17)) ∧ boundedLimbs (2 ^ 17) (List.replicate 16 (-(2 ^ 17))) ∧
    reducedLimbs ((2 ^ 16 + 37) :: List.replicate 15 (2 ^ 16 - 1)) ∧ reducedLimbs (-38 :: List.replicate 15 0) := by
  unfold boundedLimbs reducedLimbs
  decide
theorem witness_MaskedExchangeIsExact :
    ([-(2 ^ 63), 0, -1] : List Int).length = [2 ^ 63 - 1, 1, 5].length ∧
    ∀ x ∈ ([-(2 ^ 63), 0, -1] ++ [2 ^ 63 - 1, 1, 5] : List Int), -(2 ^ 63) ≤ x ∧ x < 2 ^ 63 := by decide
theorem witness_PackIsTheCanonicalEncoding :
    reducedLimbs ((2 ^ 16 + 37) :: List.replicate 15 (2 ^ 16 - 1)) ∧ reducedLimbs (-38 :: List.replicate 15 0) := by
  unfold reducedLimbs
  decide
theorem witness_LimbInverseIsTheFermatPower : (smallL (-9) 3).length = 16 := by decide

end Sys2Proof.Tests
end

section
/-! SUPPORT. Decoding inverted, the value of a window offset, and the host's accesses as the machine answers them. -/

namespace Sys2Proof

/-! ## Decoding -/

/-- The checks a command word has passed (R86). -/
theorem decodeWord_eq_command_iff {w : Word} {i : Instr} : decodeWord w = .command i ↔
    ∃ op, opcodeOf? (opField w) = some op ∧ w &&& op.maskWord = op.matchWord ∧
      ¬(op = .ladder ∧ rdField w = rs3Field w) ∧ i = commandOf op w := by
  unfold decodeWord
  cases opcodeOf? (opField w) with
  | none => simp
  | some op =>
    simp only [Option.some.injEq, exists_eq_left', ne_eq]
    by_cases hm : w &&& op.maskWord = op.matchWord
    · by_cases hl : op = .ladder ∧ rdField w = rs3Field w
      · rw [if_neg (not_not.mpr hm), if_pos hl]
        simp [hl]
      · rw [if_neg (not_not.mpr hm), if_neg hl]
        simp [hm, hl, eq_comm]
    · rw [if_pos hm]
      simp [hm]

/-- The codes under which decoding rejects a word (R86). -/
theorem decodeWord_reject_code {w : Word} {c : ErrorCode} (h : decodeWord w = .reject c) :
    c = .illegalOpcode ∨ c = .reservedField ∨ c = .operandConflict := by
  unfold decodeWord at h
  split at h
  · simp_all
  · split_ifs at h <;> simp_all

/-- A field that a row fixes has the row's value (R85). -/
theorem extractLsb'_of_masked {w m v : Word} (h : w &&& m = v) (start len : Nat)
    (hm : m.extractLsb' start len = BitVec.allOnes len) : w.extractLsb' start len = v.extractLsb' start len := by
  rw [← h, BitVec.extractLsb'_and, hm, BitVec.and_allOnes]

/-- Every row fixes the reserved bits to 0 (R81, R85). -/
theorem reservedBits_of_masked {w : Word} {op : Opcode} (h : w &&& op.maskWord = op.matchWord) :
    ∀ n ∈ [4, 5, 6, 7, 11, 15, 19, 23], w.getLsbD n = false := by
  have row : ∀ n ∈ [4, 5, 6, 7, 11, 15, 19, 23],
      op.maskWord.getLsbD n = true ∧ op.matchWord.getLsbD n = false := by
    cases op <;> decide
  intro n hn
  rw [getLsbD_of_masked h n (row n hn).1, (row n hn).2]

section row
variable {w m v : Word} (h : w &&& m = v)
include h

theorem rdField_of_masked (hm : m.extractLsb' 8 3 = BitVec.allOnes 3) : rdField w = rdField v := by
  rw [rdField, extractLsb'_of_masked h 8 3 hm]; rfl

theorem rs1Field_of_masked (hm : m.extractLsb' 12 3 = BitVec.allOnes 3) : rs1Field w = rs1Field v := by
  rw [rs1Field, extractLsb'_of_masked h 12 3 hm]; rfl

theorem rs2Field_of_masked (hm : m.extractLsb' 16 3 = BitVec.allOnes 3) : rs2Field w = rs2Field v := by
  rw [rs2Field, extractLsb'_of_masked h 16 3 hm]; rfl

theorem rs3Field_of_masked (hm : m.extractLsb' 20 3 = BitVec.allOnes 3) : rs3Field w = rs3Field v := by
  rw [rs3Field, extractLsb'_of_masked h 20 3 hm]; rfl

theorem imm8Field_of_masked (hm : m.extractLsb' 24 8 = BitVec.allOnes 8) : imm8Field w = imm8Field v :=
  extractLsb'_of_masked h 24 8 hm

end row

/-- A word in its opcode's row is the word of its command: the fields the command does not use are 0 (R85). -/
theorem encode_commandOf {w : Word} {op : Opcode} (ho : opField w = op.code)
    (hm : w &&& op.maskWord = op.matchWord) : encode (commandOf op w) = w := by
  have hw := formatC_of_fields w (reservedBits_of_masked hm)
  rw [ho] at hw
  cases op with
  | nop =>
    rw [rdField_of_masked hm (by decide), rs1Field_of_masked hm (by decide), rs2Field_of_masked hm (by decide),
      rs3Field_of_masked hm (by decide), imm8Field_of_masked hm (by decide)] at hw
    exact hw
  | fmul => rw [rs3Field_of_masked hm (by decide), imm8Field_of_masked hm (by decide)] at hw; exact hw
  | fred =>
    rw [rs2Field_of_masked hm (by decide), rs3Field_of_masked hm (by decide),
      imm8Field_of_masked hm (by decide)] at hw
    exact hw
  | cswap => rw [rs3Field_of_masked hm (by decide)] at hw; exact hw
  | clamp =>
    rw [rs2Field_of_masked hm (by decide), rs3Field_of_masked hm (by decide),
      imm8Field_of_masked hm (by decide)] at hw
    exact hw
  | ladder => rw [imm8Field_of_masked hm (by decide)] at hw; exact hw
  | smul => rw [rs3Field_of_masked hm (by decide), imm8Field_of_masked hm (by decide)] at hw; exact hw

/-- A word that decodes to a command is that command's own word. -/
theorem encode_of_decodeWord {w : Word} {i : Instr} (h : decodeWord w = .command i) : encode i = w := by
  obtain ⟨op, ho, hm, -, rfl⟩ := decodeWord_eq_command_iff.mp h
  exact encode_commandOf (opcodeOf?_eq_some ho) hm

/-- No word decodes to the ill-formed `LADDER` term (R86, R207). -/
theorem wellFormed_of_decodeWord {w : Word} {i : Instr} (h : decodeWord w = .command i) :
    i.wellFormed = true := by
  obtain ⟨op, -, -, hl, rfl⟩ := decodeWord_eq_command_iff.mp h
  cases op with
  | ladder => simpa [commandOf, Instr.wellFormed] using hl
  | _ => rfl

end Sys2Proof

namespace Sys2Proof.Machine
open Sys2Proof.Claims

/-! ## Window offsets -/

@[simp] theorem zext32_toNat (off : Offset) : (zext32 off).toNat = off.toNat := by
  rw [zext32, BitVec.toNat_setWidth, Nat.mod_eq_of_lt (by omega)]

theorem isOperandOffset_iff {off : Offset} :
    isOperandOffset off = true ↔ 0x100 ≤ off.toNat ∧ off.toNat ≤ 0x1FF := by
  simp [isOperandOffset]

/-- The register of an operand offset owns the 32 bytes the offset lies in (R32). -/
theorem operandReg_bounds {off : Offset} (h : isOperandOffset off = true) :
    0x100 + 32 * (operandReg off).val ≤ off.toNat ∧ off.toNat < 0x100 + 32 * (operandReg off).val + 32 := by
  obtain ⟨hlo, hhi⟩ := isOperandOffset_iff.mp h
  have hr : (operandReg off).val = off.toNat / 32 % 8 := by
    simp [operandReg, Nat.shiftRight_eq_div_pow]
  omega

/-! ## The host's accesses -/

theorem onEvent_eq (e : Event) (s : State) : onEvent e s = deliver e s := rfl

theorem hostRead_eq (off : Offset) (s : State) (h : off.toNat % 4 = 0) :
    hostRead off s = .next { s with readData := some (windowWord off s.block) } :=
  accessWindow_read off s h

theorem hostWrite_command (w : Word) (s : State) : hostWrite 0x000 w s = writeCommand w s :=
  accessWindow_writeCommand w s

theorem hostWrite_register (off : Offset) (v : Word) (s : State) (h : off.toNat % 4 = 0) (h0 : off ≠ 0x000) :
    hostWrite off v s = .next { s with block := writeRegister off v s.block } :=
  accessWindow_write off v s h h0

theorem writeCommand_of_command {w : Word} {i : Instr} (s : State) (h : decodeWord w = .command i) :
    writeCommand w s = exec i s := by
  simp [writeCommand, h]

end Sys2Proof.Machine
end

section
/-! SUPPORT. What an event can do to the block, said once, and that it keeps the block's invariant. -/

namespace Sys2Proof.Machine
open Sys2Proof.Claims

/-! ## Error records -/

/-- What `ERRINFO` holds under a code: the word it rejects, or the window offset (R46, R201). -/
def ErrorInfoOk (c : ErrorCode) (info : Word) : Prop :=
  match c with
  | .illegalOpcode => decodeWord info = .reject .illegalOpcode
  | .reservedField => decodeWord info = .reject .reservedField
  | .cmdBusy => True
  | .operandBusy => 0x100 ≤ info.toNat ∧ info.toNat ≤ 0x1FC ∧ info.toNat % 4 = 0
  | .operandConflict => decodeWord info = .reject .operandConflict
  | .busAccess => info.toNat < 4096

theorem errorInfoOk_of_reject {w : Word} {c : ErrorCode} (h : decodeWord w = .reject c) : ErrorInfoOk c w := by
  obtain rfl | rfl | rfl := decodeWord_reject_code h <;> exact h

theorem errorInfoOk_busAccess (off : Offset) : ErrorInfoOk .busAccess (zext32 off) := by
  simp only [ErrorInfoOk, zext32_toNat]; omega

theorem errorInfoOk_operandBusy {off : Offset} (h : isOperandOffset off = true) (h4 : off.toNat % 4 = 0) :
    ErrorInfoOk .operandBusy (zext32 off) := by
  have := isOperandOffset_iff.mp h
  simp only [ErrorInfoOk, zext32_toNat]; omega

theorem errorBits_injective : Function.Injective errorBits := by
  intro c d
  cases c <;> cases d <;> simp [errorBits]

theorem errorBits_range (c : ErrorCode) : 1 ≤ (errorBits c).toNat ∧ (errorBits c).toNat ≤ 6 := by
  cases c <;> decide

/-- The record depends on `ERR`, `ERRCODE` and `ERRINFO` only. -/
theorem ErrorRecordOk.congr {b b' : Block} (h : ErrorRecordOk b) (he : b'.err = b.err)
    (hc : b'.errCode = b.errCode) (hi : b'.errInfo = b.errInfo) : ErrorRecordOk b' := by
  constructor <;> rw [hc]
  · rw [he, hi]; exact h.none_recorded
  · rw [he]; exact h.code_range
  · rw [hi]; exact h.illegal_opcode
  · rw [hi]; exact h.reserved_field
  · rw [hi]; exact h.operand_busy
  · rw [hi]; exact h.operand_conflict
  · rw [hi]; exact h.bus_access

/-- An empty record is consistent. -/
theorem errorRecordOk_of_cleared {b : Block} (he : b.err = false) (hc : b.errCode = 0) (hi : b.errInfo = 0) :
    ErrorRecordOk b := by
  constructor <;> simp [he, hc, hi]

/-- A record under a code that rejects its `ERRINFO` is consistent. -/
theorem errorRecordOk_of_recorded {b : Block} {c : ErrorCode} (he : b.err = true) (hc : b.errCode = errorBits c)
    (hi : ErrorInfoOk c b.errInfo) : ErrorRecordOk b := by
  have info : ∀ d, b.errCode = errorBits d → ErrorInfoOk d b.errInfo := fun d hd =>
    errorBits_injective (hc.symm.trans hd) ▸ hi
  exact
    { none_recorded := fun h => by simp [he] at h
      code_range := fun _ => hc ▸ errorBits_range c
      illegal_opcode := info .illegalOpcode
      reserved_field := info .reservedField
      operand_busy := info .operandBusy
      operand_conflict := info .operandConflict
      bus_access := info .busAccess }

theorem raiseError_errorRecordOk {b : Block} {c : ErrorCode} {w : Word} (h : ErrorRecordOk b)
    (hi : ErrorInfoOk c w) : ErrorRecordOk (raiseError c w b) := by
  cases he : b.err with
  | true => rw [raiseError_of_error c w b he]; exact h.congr rfl rfl rfl
  | false => rw [raiseError_of_noError c w b he]; exact errorRecordOk_of_recorded rfl rfl hi

theorem writeStatus_errorRecordOk {b : Block} (v : Word) (h : ErrorRecordOk b) :
    ErrorRecordOk (writeStatus v b) := by
  cases hv : v.getLsbD 2 with
  | true =>
    exact errorRecordOk_of_cleared (by rw [writeStatus_err, hv, Bool.not_true, Bool.and_false])
      (by rw [writeStatus_errCode, if_pos hv]) (by rw [writeStatus_errInfo, if_pos hv])
  | false =>
    exact h.congr (by rw [writeStatus_err, hv, Bool.not_false, Bool.and_true])
      (by rw [writeStatus_errCode, hv, if_neg Bool.false_ne_true])
      (by rw [writeStatus_errInfo, hv, if_neg Bool.false_ne_true])

/-! ## The changes of the block -/

/-- The changes an event can make to the block `b`, each with its condition (R30, R100 to R106, R202, R209,
R230). -/
inductive BlockChange (e : Event) (b : Block) : Block → Prop
  /-- A performed read, a write that is ignored, an address outside the window, the turn of an idle engine. -/
  | kept : BlockChange e b b
  | errorRaised {c : ErrorCode} {w : Word} (info : ErrorInfoOk c w) : BlockChange e b (raiseError c w b)
  | commandDropped (failed : b.err = true) : BlockChange e b (dropCommand b)
  | commandAccepted {w : Word} {i : Instr} (access : portAccess e = some (0x000, .write 4 w)) (isReady : ready b)
      (decoded : decodeWord w = .command i) : BlockChange e b (accept w i.opcode (effectOf i b.x) b)
  | statusWritten {v : Word} (access : portAccess e = some (0x004, .write 4 v)) :
      BlockChange e b (writeStatus v b)
  | intenWritten {v : Word} (access : portAccess e = some (0x008, .write 4 v)) : BlockChange e b (writeInten v b)
  | operandWritten {off : Offset} {v : Word} (access : portAccess e = some (off, .write 4 v))
      (operand : isOperandOffset off = true) (idle : b.busy = false) :
      BlockChange e b { b with
        x := writeX b.x (operandReg off) (setWord (readX b.x (operandReg off)) (operandWord off) v) }
  | engineTicked {cur : Word} {p : Pending} {r : Nat} (turn : e = .engine)
      (engine : b.engine = .busy cur p (r + 2)) : BlockChange e b { b with engine := .busy cur p (r + 1) }
  | commandCompleted {cur : Word} {p : Pending} {r : Nat} (turn : e = .engine ∨ e = .completion)
      (engine : b.engine = .busy cur p r) : BlockChange e b (complete p b)
  | wasReset (event : e = .reset) : BlockChange e b Block.reset

/-- The checks before decoding change the block as they allow, or let the later steps change it. -/
theorem issueChecks_blockChange {e : Event} {b passed : Block} (w : Word)
    (h : ready b → BlockChange e b passed) : BlockChange e b (issueChecks w b passed) := by
  obtain ⟨he, hc⟩ | ⟨-, -, hc⟩ | ⟨he, hb, hc⟩ := issueChecks_cases w b passed <;> rw [hc]
  · exact .commandDropped he
  · exact .errorRaised (c := .cmdBusy) trivial
  · exact h ⟨he, hb⟩

/-- The change of a performed `CMD` write of a command. -/
theorem exec_blockChange {e : Event} {w : Word} {i : Instr} {s t : State}
    (access : portAccess e = some (0x000, .write 4 w)) (decoded : decodeWord w = .command i)
    (h : exec i s = .next t) : BlockChange e s.block t.block := by
  rw [exec_of_wellFormed i s (wellFormed_of_decodeWord decoded)] at h
  injection h with h
  subst h
  rw [issueCommand, encode_of_decodeWord decoded]
  exact issueChecks_blockChange w fun hr => .commandAccepted access hr decoded

/-- The change of a performed write outside `CMD`. -/
theorem writeRegister_blockChange {e : Event} {off : Offset} {v : Word} (b : Block)
    (access : portAccess e = some (off, .write 4 v)) (aligned : off.toNat % 4 = 0) :
    BlockChange e b (writeRegister off v b) := by
  obtain ⟨rfl, hw⟩ | ⟨rfl, hw⟩ | ⟨ho, -, hw⟩ | ⟨ho, hb, hw⟩ | ⟨-, -, -, hw⟩ := writeRegister_cases off v b <;>
    rw [hw]
  · exact .statusWritten access
  · exact .intenWritten access
  · exact .errorRaised (errorInfoOk_operandBusy ho aligned)
  · exact .operandWritten access ho hb
  · exact .kept

/-- The change of a host access at a window offset. -/
theorem accessWindow_blockChange {e : Event} {off : Offset} {a : Access} {s t : State}
    (access : portAccess e = some (off, a)) (h : accessWindow off a s = .next t) :
    BlockChange e s.block t.block := by
  obtain ⟨n, -, -, -, rfl⟩ | ⟨n, -, -, rfl⟩ | ⟨n, v, -, -, rfl⟩ | ⟨w, rfl, rfl, hw⟩ | ⟨w, rfl, -, h4, rfl⟩ :=
    accessWindow_cases off a s t h
  · exact .kept
  · exact .errorRaised (errorInfoOk_busAccess off)
  · exact .errorRaised (errorInfoOk_busAccess off)
  · obtain ⟨c, hc, rfl⟩ | ⟨i, hi, hx⟩ := hw
    · exact issueChecks_blockChange w fun _ => .errorRaised (errorInfoOk_of_reject hc)
    · exact exec_blockChange access hi hx
  · exact writeRegister_blockChange s.block access h4

theorem engineStep_blockChange (b : Block) : BlockChange .engine b (engineStep b) := by
  cases he : b.engine with
  | idle => rw [engineStep_idle b he]; exact .kept
  | busy cur p r =>
    obtain hr | ⟨r, rfl⟩ : r ≤ 1 ∨ ∃ k, r = k + 2 := by
      rcases r with _ | _ | k <;> simp
    · rw [engineStep_last b he hr]; exact .commandCompleted (.inl rfl) he
    · rw [engineStep_more b he]; exact .engineTicked rfl he

theorem finishCommand_blockChange (b : Block) : BlockChange .completion b (finishCommand b) := by
  cases he : b.engine with
  | idle => rw [finishCommand_idle b he]; exact .kept
  | busy cur p r => rw [finishCommand_busy b he]; exact .commandCompleted (.inr rfl) he

/-- An event changes the block in one of the ways `BlockChange` names. -/
theorem deliver_blockChange {e : Event} {s t : State} (h : deliver e s = .next t) :
    BlockChange e s.block t.block := by
  obtain ⟨off, a, access, ha⟩ | ⟨-, -, rfl⟩ | ⟨rfl, rfl⟩ | ⟨rfl, rfl⟩ | ⟨rfl, rfl⟩ := deliver_cases e s t h
  · exact accessWindow_blockChange access ha
  · exact .kept
  · exact engineStep_blockChange s.block
  · exact finishCommand_blockChange s.block
  · exact .wasReset rfl

/-- A step changes the block as its event does. -/
theorem step_blockChange {s t : State} (h : step s = .next t) : ∃ e, BlockChange e s.block t.block := by
  cases hs : s.inputs with
  | nil =>
    rw [step_nil s hs] at h
    injection h with h
    exact ⟨.completion, h ▸ finishCommand_blockChange s.block⟩
  | cons e rest =>
    simp only [step, hs] at h
    exact ⟨e, deliver_blockChange (s := { s with inputs := rest }) h⟩

/-! ## The invariant -/

/-- `exec` counts 0 or 255 ladder iterations (R47, R102). -/
theorem effectOf_steps (i : Instr) (x : Regs) : (effectOf i x).steps = 0 ∨ (effectOf i x).steps = 255 := by
  cases i with
  | ladder rd rs1 rs2 rs3 => exact .inr rfl
  | smul rd rs1 rs2 => exact .inr rfl
  | _ => exact .inl rfl

theorem inFlightOk_of_idle {b : Block} (h : b.engine = .idle) : InFlightOk b := by
  intro cur p r he
  simp [h] at he

/-- A change that leaves the engine, `CMD_LAST` and the registers, and does not set `DONE`, leaves the command in
flight as it is. -/
theorem InFlightOk.congr {b b' : Block} (h : InFlightOk b) (he : b'.engine = b.engine)
    (hc : b'.cmdLast = b.cmdLast) (hx : b'.x = b.x) (hd : b.done = false → b'.done = false) : InFlightOk b' := by
  intro cur p r hb
  obtain ⟨hdone, hcur, hi⟩ := h cur p r (he ▸ hb)
  exact ⟨hd hdone, hcur.trans hc.symm, hx ▸ hi⟩

theorem accept_inFlightOk {w : Word} {i : Instr} (b : Block) (h : decodeWord w = .command i) :
    InFlightOk (accept w i.opcode (effectOf i b.x) b) := by
  intro cur p r he
  obtain ⟨rfl, rfl, rfl⟩ := Engine.busy.inj he
  exact ⟨rfl, rfl, i, h, rfl, lat_pos i.opcode, Nat.le_refl _⟩

theorem engineTicked_inFlightOk {b : Block} {cur : Word} {p : Pending} {r : Nat} (h : InFlightOk b)
    (he : b.engine = .busy cur p (r + 2)) : InFlightOk { b with engine := .busy cur p (r + 1) } := by
  obtain ⟨hdone, hcur, i, hi, hp, -, hlat⟩ := h cur p (r + 2) he
  intro cur' p' r' he'
  obtain ⟨rfl, rfl, rfl⟩ := Engine.busy.inj he'
  exact ⟨hdone, hcur, i, hi, hp, by omega, by omega⟩

theorem complete_steps_value {b : Block} {cur : Word} {p : Pending} {r : Nat} (h : InFlightOk b)
    (he : b.engine = .busy cur p r) : (complete p b).steps = 0 ∨ (complete p b).steps = 255 := by
  obtain ⟨-, -, i, -, rfl, -, -⟩ := h cur p r he
  rw [complete_steps]
  obtain hs | hs := effectOf_steps i b.x <;> simp [hs]

theorem reset_blockInv : BlockInv Block.reset where
  errors := errorRecordOk_of_cleared rfl rfl rfl
  inFlight := inFlightOk_of_idle rfl
  lastCommand := ⟨.nop, by decide⟩
  steps_value := .inl rfl

/-- Every change of the block keeps its invariant. -/
theorem BlockChange.keeps_blockInv {e : Event} {b b' : Block} (h : BlockChange e b b') (hb : BlockInv b) :
    BlockInv b' := by
  obtain ⟨errors, inFlight, lastCommand, steps_value⟩ := hb
  cases h with
  | kept => exact ⟨errors, inFlight, lastCommand, steps_value⟩
  | errorRaised info =>
    exact ⟨raiseError_errorRecordOk errors info, inFlight.congr (by simp) (by simp) (by simp) (by simp),
      by simpa using lastCommand, by simpa using steps_value⟩
  | commandDropped =>
    exact ⟨errors.congr rfl rfl rfl, inFlight.congr rfl rfl rfl id, lastCommand, steps_value⟩
  | commandAccepted _ _ decoded =>
    exact ⟨errors.congr rfl rfl rfl, accept_inFlightOk b decoded, ⟨_, decoded⟩, steps_value⟩
  | statusWritten =>
    exact ⟨writeStatus_errorRecordOk _ errors,
      inFlight.congr (by simp) (by simp) (by simp) (fun hd => by simp [hd]),
      by simpa using lastCommand, by simpa using steps_value⟩
  | intenWritten =>
    exact ⟨errors.congr rfl rfl rfl, inFlight.congr rfl rfl rfl id, lastCommand, steps_value⟩
  | operandWritten _ _ idle =>
    exact ⟨errors.congr rfl rfl rfl, inFlightOk_of_idle ((busy_eq_false_iff b).mp idle), lastCommand, steps_value⟩
  | engineTicked _ engine =>
    exact ⟨errors.congr rfl rfl rfl, engineTicked_inFlightOk inFlight engine, lastCommand, steps_value⟩
  | commandCompleted _ engine =>
    exact ⟨errors.congr rfl rfl rfl, inFlightOk_of_idle rfl, lastCommand, complete_steps_value inFlight engine⟩
  | wasReset => exact reset_blockInv

/-- Settles O29: an event changes the block as `BlockChange` says, and each of these changes keeps the invariant. -/
theorem stepsKeepTheInvariant : Obligations.StepsKeepTheInvariant := by
  intro s t hb h
  obtain ⟨e, hc⟩ := step_blockChange h
  exact hc.keeps_blockInv hb

/-- Settles O28: the error record is empty, the engine idle, `CMD_LAST` the word of `NOP`. -/
theorem resetMeetsTheInvariant : Obligations.ResetMeetsTheInvariant := reset_blockInv

end Sys2Proof.Machine
end

section
/-! SUPPORT. Which event can change `ERR`, `CMD_LAST` and an operand register, read off the changes of the block. -/

namespace Sys2Proof.Machine
open Sys2Proof.Claims

/-- An event a claim is about changes the block as `BlockChange` says. -/
theorem onEvent_blockChange {e : Event} {s t : State} (h : onEvent e s = .next t) :
    BlockChange e s.block t.block := deliver_blockChange h

/-! ## The error record -/

/-- While `ERR = 1` every change keeps the record, or clears the whole of it by a `STATUS` write with bit 2 = 1 or
by reset (R41, R202, R218). -/
theorem BlockChange.error_kept_or_cleared {e : Event} {b b' : Block} (h : BlockChange e b b')
    (he : b.err = true) :
    (b'.err = true ∧ b'.errCode = b.errCode ∧ b'.errInfo = b.errInfo) ∨
    (b'.err = false ∧ b'.errCode = 0 ∧ b'.errInfo = 0 ∧
      (e = .reset ∨ ∃ v : Word, portAccess e = some (0x004, .write 4 v) ∧ v.getLsbD 2 = true)) := by
  cases h with
  | errorRaised => rw [raiseError_of_error _ _ b he]; exact .inl ⟨he, rfl, rfl⟩
  | @statusWritten v access =>
    rw [writeStatus_err, writeStatus_errCode, writeStatus_errInfo, he]
    cases hv : v.getLsbD 2 with
    | true => exact .inr ⟨rfl, rfl, rfl, .inr ⟨v, access, hv⟩⟩
    | false => exact .inl ⟨rfl, rfl, rfl⟩
  | wasReset event => exact .inr ⟨rfl, rfl, rfl, .inl event⟩
  | _ => exact .inl ⟨he, rfl, rfl⟩

/-- Settles O12: each change of the block keeps the record, or is one of the two that clear it. -/
theorem firstErrorIsKeptUntilCleared : Obligations.FirstErrorIsKeptUntilCleared :=
  fun _ _ _ h he => (onEvent_blockChange h).error_kept_or_cleared he

/-! ## The last accepted command word -/

/-- A change of `CMD_LAST` is an acceptance or reset (R38). -/
theorem BlockChange.cmdLast_writer {e : Event} {b b' : Block} (h : BlockChange e b b')
    (hne : b'.cmdLast ≠ b.cmdLast) :
    e = .reset ∨ ∃ (w : Word) (i : Instr), portAccess e = some (0x000, .write 4 w) ∧ ready b ∧
      decodeWord w = .command i ∧ b'.cmdLast = w ∧ b'.busy = true := by
  cases h with
  | commandAccepted access isReady decoded =>
    exact .inr ⟨_, _, access, isReady, decoded, accept_cmdLast .., accept_busy ..⟩
  | wasReset event => exact .inl event
  | errorRaised => exact absurd (raiseError_cmdLast ..) hne
  | statusWritten => exact absurd (writeStatus_cmdLast ..) hne
  | _ => exact absurd rfl hne

/-- Settles O24: of the changes of the block only acceptance and reset write `CMD_LAST`. -/
theorem cmdLastChangesOnlyByAcceptance : Obligations.CmdLastChangesOnlyByAcceptance :=
  fun s => ⟨hostRead_eq 0x000 s rfl, fun _ _ h hne => (onEvent_blockChange h).cmdLast_writer hne⟩

/-! ## The operand registers -/

/-- A change of an operand register is reset, the completion of a command that writes it, or a write of its own
bytes while the engine is idle (R30, R32, R67, R103, R230). -/
theorem BlockChange.register_writer {e : Event} {b b' : Block} (h : BlockChange e b b') (r : Reg)
    (hne : readX b'.x r ≠ readX b.x r) :
    e = .reset ∨
    ((e = .engine ∨ e = .completion) ∧ b'.engine = .idle ∧ b'.done = true ∧
      ∃ cur p n, b.engine = .busy cur p n ∧ r ∈ p.writes.map Prod.fst) ∨
    (b.busy = false ∧ ∃ (off : Offset) (v : Word), portAccess e = some (off, .write 4 v) ∧
      0x100 + 32 * r.val ≤ off.toNat ∧ off.toNat < 0x100 + 32 * r.val + 32) := by
  cases h with
  | wasReset event => exact .inl event
  | @commandCompleted cur p n turn engine =>
    have written : r ∈ p.writes.map Prod.fst := by
      by_contra hr
      exact hne (readX_commitWrites_other p.writes b.x r hr)
    exact .inr (.inl ⟨turn, rfl, rfl, cur, p, n, engine, written⟩)
  | @operandWritten off v access operand idle =>
    have own : operandReg off = r := by
      by_contra hr
      exact hne (readX_writeX_other b.x _ hr)
    exact .inr (.inr ⟨idle, off, v, access, own ▸ operandReg_bounds operand⟩)
  | errorRaised => exact absurd (by rw [raiseError_x]) hne
  | statusWritten => exact absurd (by rw [writeStatus_x]) hne
  | _ => exact absurd rfl hne

/-- Settles O25: of the changes of the block only reset, a completion and an operand write change a register. -/
theorem operandRegistersChangeOnlyByTheirWriters : Obligations.OperandRegistersChangeOnlyByTheirWriters :=
  fun _ _ _ r h hne => (onEvent_blockChange h).register_writer r hne

end Sys2Proof.Machine
end

section
/-! SUPPORT. The operands of a command, its issue by a `CMD` write, and the status registers of the window. -/

namespace Sys2Proof.Machine
open Sys2Proof.Claims

/-! ## Operands -/

/-- A command's results depend on its sources only (R33). -/
theorem effectOf_congr (i : Instr) {x y : Regs} (h : ∀ r ∈ sourcesOf i, readX x r = readX y r) :
    effectOf i x = effectOf i y := by
  cases i <;> simp only [sourcesOf, List.forall_mem_cons] at h
  case nop => rfl
  case fmul => simp only [effectOf, effectFmul, h]
  case fred => simp only [effectOf, effectFred, h]
  case cswap => simp only [effectOf, effectCswap, h]
  case clamp => simp only [effectOf, effectClamp, h]
  case ladder => simp only [effectOf, effectLadder, h]
  case smul => simp only [effectOf, effectSmul, h]

/-- A command's writes name its destinations, in order (R33). -/
theorem effectOf_destinations (i : Instr) (x : Regs) : (effectOf i x).writes.map Prod.fst = destinationsOf i := by
  cases i <;> rfl

/-- Settles O44: each result is an expression in the reads of the sources. -/
theorem commandsTouchOnlyTheirOperands : Obligations.CommandsTouchOnlyTheirOperands :=
  fun i x _ h => ⟨effectOf_congr i h, effectOf_destinations i x⟩

/-! ## Issue -/

/-- Settles O7: the performed `CMD` write decodes its word and runs the command. -/
theorem stepRunsTheDecodedCommand : Obligations.StepRunsTheDecodedCommand :=
  fun s w _ h => (hostWrite_command w s).trans (writeCommand_of_command s h)

/-! ## Status registers -/

/-- A flag placed at bit `n`. -/
theorem flagWord_shiftLeft_getLsbD (f : Bool) (n : Nat) {k : Nat} (hk : k < 32) :
    (flagWord f <<< n).getLsbD k = (f && decide (k = n)) := by
  cases f with
  | false => simp [flagWord]
  | true =>
    change (1#32 <<< n).getLsbD k = (true && decide (k = n))
    rw [← BitVec.twoPow_eq, BitVec.getLsbD_twoPow, Bool.true_and]
    by_cases hn : k = n
    · subst hn; simp [hk]
    · simp [hn, Ne.symm hn]

theorem flagWord_getLsbD (f : Bool) {k : Nat} (hk : k < 32) : (flagWord f).getLsbD k = (f && decide (k = 0)) := by
  rw [← flagWord_shiftLeft_getLsbD f 0 hk, BitVec.shiftLeft_zero]

/-- The code placed in bits 11:8. -/
theorem errCode_shiftLeft_getLsbD (c : BitVec 4) {k : Nat} (hk : k < 32) :
    (c.setWidth 32 <<< 8).getLsbD k = if 8 ≤ k ∧ k < 12 then c.getLsbD (k - 8) else false := by
  have hk' : k - 8 < 32 := by omega
  simp only [BitVec.getLsbD_shiftLeft, BitVec.getLsbD_setWidth, hk, hk', decide_true, Bool.true_and]
  split_ifs with h
  · simp [h.1]
  · by_cases h8 : k < 8
    · simp [h8]
    · rw [BitVec.getLsbD_of_ge c (k - 8) (by omega), Bool.and_false]

/-- `STATUS`, bit by bit (R44). -/
theorem statusWord_getLsbD (b : Block) {k : Nat} (hk : k < 32) : (statusWord b).getLsbD k =
    if k = 0 then b.busy else if k = 1 then b.done else if k = 2 then b.err else if k = 3 then b.dropped
    else if 8 ≤ k ∧ k < 12 then b.errCode.getLsbD (k - 8) else false := by
  simp only [statusWord, BitVec.getLsbD_or, flagWord_getLsbD _ hk, flagWord_shiftLeft_getLsbD _ _ hk,
    errCode_shiftLeft_getLsbD _ hk]
  obtain rfl | rfl | rfl | rfl | h4 : k = 0 ∨ k = 1 ∨ k = 2 ∨ k = 3 ∨ 4 ≤ k := by omega
  · simp
  · simp
  · simp
  · simp
  · have hne : k ≠ 0 ∧ k ≠ 1 ∧ k ≠ 2 ∧ k ≠ 3 := by omega
    simp [hne]

/-- `INTEN`, bit by bit (R45). -/
theorem intenWord_getLsbD (b : Block) {k : Nat} (hk : k < 32) : (intenWord b).getLsbD k =
    if k = 0 then b.doneIE else if k = 1 then b.errIE else false := by
  simp only [intenWord, BitVec.getLsbD_or, flagWord_getLsbD _ hk, flagWord_shiftLeft_getLsbD _ _ hk]
  split_ifs <;> simp [*]

/-- Exactly what a `STATUS` write does (R44). -/
theorem writeStatus_eq (v : Word) (b : Block) : writeStatus v b = { b with
    done := if v.getLsbD 1 then false else b.done
    err := if v.getLsbD 2 then false else b.err
    errCode := if v.getLsbD 2 then 0 else b.errCode
    errInfo := if v.getLsbD 2 then 0 else b.errInfo
    dropped := if v.getLsbD 3 then false else b.dropped } := by
  unfold writeStatus
  cases v.getLsbD 1 <;> cases v.getLsbD 2 <;> cases v.getLsbD 3 <;> rfl

theorem hostWrite_status (v : Word) (s : State) :
    hostWrite 0x004 v s = .next { s with block := writeStatus v s.block } :=
  hostWrite_register 0x004 v s rfl (by decide)

theorem hostWrite_inten (v : Word) (s : State) :
    hostWrite 0x008 v s = .next { s with block := writeInten v s.block } :=
  hostWrite_register 0x008 v s rfl (by decide)

/-- Settles O17: the read is `statusWord` bit by bit, the write `writeStatus` field by field. -/
theorem statusReadAndWrite : Obligations.StatusReadAndWrite := by
  intro s v
  refine ⟨⟨statusWord s.block, hostRead_eq 0x004 s rfl, fun k hk => statusWord_getLsbD s.block hk⟩, ?_⟩
  rw [hostWrite_status, writeStatus_eq]

/-- Settles O18: the write is `writeInten`, the read `intenWord` bit by bit. -/
theorem intenKeepsTwoBits : Obligations.IntenKeepsTwoBits :=
  fun s v => ⟨hostWrite_inten v s, intenWord s.block, hostRead_eq 0x008 s rfl,
    fun _ hk => intenWord_getLsbD s.block hk⟩

/-- Settles O20: no rule of the window gives a write of `ERRINFO` or `STEPS` an effect. -/
theorem readOnlyRegistersIgnoreWrites : Obligations.ReadOnlyRegistersIgnoreWrites :=
  fun s v => ⟨hostRead_eq 0x00C s rfl, hostWrite_register 0x00C v s rfl (by decide),
    hostRead_eq 0x010 s rfl, hostWrite_register 0x010 v s rfl (by decide)⟩

/-- The completion event of a command in flight (R103). -/
theorem onEvent_completion {s : State} {cur : Word} {p : Pending} {n : Nat} (h : s.block.engine = .busy cur p n) :
    onEvent .completion s = .next { s with block := complete p s.block } := by
  rw [onEvent_eq, deliver, finishCommand_busy s.block h]

/-- Settles O26: `irq` is a function of the four bits each event leaves. -/
theorem interruptIsALevel : Obligations.InterruptIsALevel := by
  intro s v
  refine ⟨⟨_, hostWrite_inten v s, ?_⟩, ⟨_, hostWrite_status v s, ?_⟩,
    fun cur p n h => ⟨_, onEvent_completion h, ?_⟩⟩
  · simp only [irq, writeInten_done, writeInten_err, writeInten_doneIE, writeInten_errIE]
  · simp only [irq, writeStatus_done, writeStatus_err, writeStatus_doneIE, writeStatus_errIE]
  · simp only [irq, complete_done, complete_err, complete_doneIE, complete_errIE, Bool.true_and]

end Sys2Proof.Machine
end

section
/-! SUPPORT. The register window: host addresses, reserved offsets, the words of an operand register, and a whole
register loaded word by word. -/

namespace Sys2Proof.Machine
open Sys2Proof.Claims

/-! ## Host addresses -/

theorem windowOffset?_of_outside {addr : Nat} (h : addr < Config.base ∨ Config.base + 4096 ≤ addr) :
    windowOffset? addr = none :=
  if_neg (by unfold Config.window; omega)

@[simp] theorem windowOffset?_base_add (off : Offset) : windowOffset? (Config.base + off.toNat) = some off := by
  have inside : Config.base ≤ Config.base + off.toNat ∧
      Config.base + off.toNat < Config.base + Config.window := by
    unfold Config.window; omega
  rw [windowOffset?, if_pos inside, Nat.add_sub_cancel_left, BitVec.ofNat_toNat, BitVec.setWidth_eq]

/-- An address outside the window does not reach the block (R75). -/
theorem deliver_host_of_outside {addr : Nat} (a : Access) (s : State) (h : windowOffset? addr = none) :
    deliver (.host addr a) s = .next s := by
  rw [deliver, h]

/-- Settles O10: `windowOffset?` is none outside the window, and the offset inside it. -/
theorem hostAddressesReachTheWindowOnly : Obligations.HostAddressesReachTheWindowOnly := by
  intro s
  refine ⟨fun addr a h => deliver_host_of_outside a s (windowOffset?_of_outside h), fun off a => ?_⟩
  have access : portAccess (.host (Config.base + off.toNat) a) = some (off, a) := by
    rw [portAccess, windowOffset?_base_add, Option.map_some]
  exact deliver_of_portAccess s access

/-! ## Offsets above the status registers -/

/-- Above `STEPS` a read returns a word of the operand window or 0 (R61, R62). -/
theorem windowWord_above {off : Offset} (b : Block) (h : 0x010 < off.toNat) :
    windowWord off b = if isOperandOffset off then wordOf (readX b.x (operandReg off)) (operandWord off) else 0 := by
  have ne {c : Offset} (hc : c.toNat ≤ 0x010) : off ≠ c := by rintro rfl; omega
  rw [windowWord, if_neg (ne (by decide)), if_neg (ne (by decide)), if_neg (ne (by decide)),
    if_neg (ne (by decide)), if_neg (ne (by decide))]

/-- Above `INTEN` only a write of the operand window has an effect (R37, R62). -/
theorem writeRegister_above {off : Offset} (v : Word) (b : Block) (h : 0x008 < off.toNat) :
    writeRegister off v b = if isOperandOffset off then writeOperand off v b else b := by
  have ne {c : Offset} (hc : c.toNat ≤ 0x008) : off ≠ c := by rintro rfl; omega
  rw [writeRegister, if_neg (ne (by decide)), if_neg (ne (by decide))]

/-- Settles O19: a reserved offset is above the status registers and not in the operand window. -/
theorem reservedOffsetsReadZeroAndIgnoreWrites : Obligations.ReservedOffsetsReadZeroAndIgnoreWrites := by
  intro s off v aligned range
  have notOperand : ¬isOperandOffset off = true := by rw [isOperandOffset_iff]; omega
  have notCmd : off ≠ 0x000 := by rintro rfl; simp at range
  constructor
  · rw [hostRead_eq off s aligned, windowWord_above s.block (by omega), if_neg notOperand]
  · rw [hostWrite_register off v s aligned notCmd, writeRegister_above v s.block (by omega), if_neg notOperand]

/-- Settles O21: a performed read returns the word of its offset, a function of the block, and keeps the block. -/
theorem performedReadsHaveNoSideEffect : Obligations.PerformedReadsHaveNoSideEffect :=
  fun s off aligned => ⟨windowWord off s.block, hostRead_eq off s aligned,
    fun d => hostRead_eq off { s with readData := d } aligned⟩

/-! ## The operand window -/

theorem operandOffset_aligned (i : Reg) (j : Fin 8) : (operandOffset i j).toNat % 4 = 0 := by
  simpa [performed] using performed_operandOffset i j

theorem operandOffset_ge (i : Reg) (j : Fin 8) : 0x100 ≤ (operandOffset i j).toNat :=
  (isOperandOffset_iff.mp (isOperandOffset_operandOffset i j)).1

/-- A read of word `j` of `x[i]`, busy or not (R64). -/
theorem hostRead_operand (i : Reg) (j : Fin 8) (s : State) :
    hostRead (operandOffset i j) s = .next { s with readData := some (wordOf (readX s.block.x i) j) } := by
  have above := operandOffset_ge i j
  rw [hostRead_eq _ s (operandOffset_aligned i j), windowWord_above s.block (by omega),
    if_pos (isOperandOffset_operandOffset i j), operandReg_operandOffset, operandWord_operandOffset]

/-- A write of word `j` of `x[i]` while idle (R64). -/
theorem hostWrite_operand_of_idle (i : Reg) (j : Fin 8) (v : Word) {s : State} (idle : s.block.busy = false) :
    hostWrite (operandOffset i j) v s = .next { s with block := { s.block with
      x := writeX s.block.x i (setWord (readX s.block.x i) j v) } } := by
  have above := operandOffset_ge i j
  rw [hostWrite_register _ v s (operandOffset_aligned i j) (operandOffset_ne_cmd i j),
    writeRegister_above v s.block (by omega), if_pos (isOperandOffset_operandOffset i j), writeOperand, idle,
    operandReg_operandOffset, operandWord_operandOffset]
  rfl

/-- Byte `k` of word `j` is byte `4j + k` of the register (R9, R64). -/
theorem wordOf_extract_byte (w : XWord) (j : Fin 8) {k : Nat} (hk : k < 4) :
    (wordOf w j).extractLsb' (8 * k) 8 = w.extractLsb' (8 * (4 * j.val + k)) 8 := by
  apply BitVec.eq_of_getLsbD_eq
  intro n hn
  have inWord : 8 * k + n < 32 := by omega
  have place : 32 * j.val + (8 * k + n) = 8 * (4 * j.val + k) + n := by omega
  simp [wordOf, hn, inWord, place]

/-- Settles O22: the read is word `j` of the register, the write replaces that word in it. -/
theorem operandWordsReadAndWrite : Obligations.OperandWordsReadAndWrite :=
  fun s i j v =>
    ⟨⟨wordOf (readX s.block.x i) j, hostRead_operand i j s, rfl, fun _ hk => wordOf_extract_byte _ j hk⟩,
    fun idle => ⟨setWord (readX s.block.x i) j v, hostWrite_operand_of_idle i j v idle,
      wordOf_setWord_bit (readX s.block.x i) j v⟩⟩

/-! ## A whole register, word by word -/

/-- `w` with the words of `js` replaced, one after the other, by those of `v`. -/
def setWordsFrom (v : XWord) (js : List (Fin 8)) (w : XWord) : XWord :=
  js.foldl (fun w j => setWord w j (wordOf v j)) w

theorem wordOf_setWordsFrom (v : XWord) (js : List (Fin 8)) (w : XWord) (k : Fin 8) :
    wordOf (setWordsFrom v js w) k = if k ∈ js then wordOf v k else wordOf w k := by
  induction js generalizing w with
  | nil => rfl
  | cons j js ih =>
    rw [setWordsFrom, List.foldl_cons, ← setWordsFrom, ih]
    by_cases hk : k = j
    · subst hk; simp
    · rw [wordOf_setWord_other _ _ (Ne.symm hk)]; simp [hk]

/-- The eight words determine the value (R64). -/
theorem xword_ext_wordOf {v w : XWord} (h : ∀ j, wordOf v j = wordOf w j) : v = w := by
  apply BitVec.eq_of_getLsbD_eq
  intro k hk
  have bit (u : XWord) : u.getLsbD k = (wordOf u ⟨k / 32, by omega⟩).getLsbD (k % 32) := by
    rw [wordOf, BitVec.getLsbD_extractLsb', Nat.div_add_mod]
    simp [Nat.mod_lt]
  rw [bit v, bit w, h]

theorem setWordsFrom_finRange (v w : XWord) : setWordsFrom v (List.finRange 8) w = v :=
  xword_ext_wordOf fun j => by rw [wordOf_setWordsFrom, if_pos (List.mem_finRange j)]

@[simp] theorem writeX_writeX (x : Regs) (i : Reg) (v w : XWord) : writeX (writeX x i v) i w = writeX x i w :=
  Vector.set_set ..

@[simp] theorem writeX_readX (x : Regs) (i : Reg) : writeX x i (readX x i) = x :=
  Vector.set_getElem_self ..

/-- Host writes of the words `js` of `v` to `x[i]`, with no other event between them, while idle. -/
theorem run_operandWrites (i : Reg) (v : XWord) (js : List (Fin 8)) {s : State} (idle : s.block.busy = false) :
    Sys2Proof.core.run js.length
        { s with inputs := (js.map fun j => hostWriteEvent (operandOffset i j) (wordOf v j)) ++ s.inputs } =
      .next { s with block := { s.block with
        x := writeX s.block.x i (setWordsFrom v js (readX s.block.x i)) } } := by
  induction js generalizing s with
  | nil => simp [setWordsFrom]
  | cons j js ih =>
    have write := hostWrite_operand_of_idle i j (wordOf v j) (s := { s with
      inputs := (js.map fun j => hostWriteEvent (operandOffset i j) (wordOf v j)) ++ s.inputs }) idle
    refine (run_succ js.length write).trans ((ih (s := { s with block := { s.block with
      x := writeX s.block.x i (setWord (readX s.block.x i) j (wordOf v j)) } }) idle).trans ?_)
    rw [readX_writeX_same, writeX_writeX]
    rfl

/-- Settles O23: the eight words of `LOADX` replace every word of the register. -/
theorem loadingEightWordsLoadsTheRegister : Obligations.LoadingEightWordsLoadsTheRegister := by
  intro s i v idle
  have run := run_operandWrites i v (List.finRange 8) idle
  rw [setWordsFrom_finRange] at run
  exact run

end Sys2Proof.Machine
end

section
/-! SUPPORT. The engine steps that remain of a command in flight, taken one after the other. -/

namespace Sys2Proof.Machine
open Sys2Proof.Claims

theorem afterEngineSteps_succ (k : Nat) (s : State) :
    afterEngineSteps (k + 1) s = afterEngineSteps k { s with block := engineStep s.block } := rfl

/-- With `n + 1` engine steps left, that many complete the command (R103). -/
theorem afterEngineSteps_remaining {s : State} {cur : Word} {p : Pending} {n : Nat}
    (h : s.block.engine = .busy cur p (n + 1)) :
    afterEngineSteps (n + 1) s = .next { s with block := complete p s.block } := by
  induction n generalizing s with
  | zero => rw [afterEngineSteps_succ, engineStep_last s.block h (Nat.le_refl 1)]; rfl
  | succ n ih =>
    rw [afterEngineSteps_succ, engineStep_more s.block h, ih rfl]
    rfl

/-- Settles O33: both the remaining engine steps and the step with no event waiting are the completion. -/
theorem completionIsTheRemainingEngineSteps : Obligations.CompletionIsTheRemainingEngineSteps := by
  intro s cur p n engine hn
  obtain ⟨n, rfl⟩ := Nat.exists_eq_add_of_le' hn
  rw [onEvent_completion engine]
  exact ⟨afterEngineSteps_remaining engine, fun hi => by rw [step_nil s hi, finishCommand_busy s.block engine]⟩

end Sys2Proof.Machine
end

section
/-! SUPPORT. Decoding against encoding: the round trip of every command and every word, and the words that decoding
rejects, code by code. -/

namespace Sys2Proof
open Sys2Proof.Laws

/-! ## The round trip -/

/-- Assembling a command and taking its fields apart again loses no operand (R81, R86). -/
theorem commandOf_encode (i : Instr) : commandOf i.opcode (encode i) = i := by
  cases i <;> simp [encode, Instr.opcode, commandOf]

/-- The word of a well-formed command passes the check of `LADDER`'s destinations (R86, R207). -/
theorem destinations_of_wellFormed {i : Instr} (h : i.wellFormed = true) :
    ¬(i.opcode = .ladder ∧ rdField (encode i) = rs3Field (encode i)) := by
  cases i with
  | ladder rd rs1 rs2 rs3 => simpa [Instr.opcode, Instr.wellFormed, encode] using h
  | _ => simp [Instr.opcode]

/-- A well-formed command's word passes every check of R86, and its fields are the operands. -/
theorem decodeWord_encode {i : Instr} (h : i.wellFormed = true) : decodeWord (encode i) = .command i :=
  decodeWord_eq_command_iff.mpr ⟨i.opcode, by rw [opField_encode, opcodeOf?_code], EncodesInRow.holds i,
    destinations_of_wellFormed h, (commandOf_encode i).symm⟩

/-- Settles O1: the word lies in its opcode's row, and its fields read back as the operands. -/
theorem commandsDecodeBack : Obligations.CommandsDecodeBack := fun _ h => decodeWord_encode h

/-- Settles O2: a legal word has every bit outside its command's fields at the value the row fixes. -/
theorem decodedWordsEncodeBack : Obligations.DecodedWordsEncodeBack := fun _ _ h =>
  ⟨wellFormed_of_decodeWord h, encode_of_decodeWord h⟩

/-- `nop` is assembled from nothing but zeros (R87). -/
theorem encode_nop : encode .nop = 0x00000000 := by decide

/-- Settles O5: the word of `nop` is 0, and a command has no other word. -/
theorem onlyTheZeroWordIsNop : Obligations.OnlyTheZeroWordIsNop := by
  intro w
  constructor
  · intro h
    rw [← encode_of_decodeWord h, encode_nop]
  · rintro rfl
    rw [← encode_nop]
    exact decodeWord_encode rfl

/-- Settles O6, by evaluating the decoder on the seven words. -/
theorem specExampleWordsDecode : Obligations.SpecExampleWordsDecode := by
  unfold Obligations.SpecExampleWordsDecode
  decide

/-! ## The rows of the opcode table -/

theorem Opcode.forall_iff {P : Opcode → Prop} :
    (∀ op, P op) ↔ P .nop ∧ P .fmul ∧ P .fred ∧ P .cswap ∧ P .clamp ∧ P .ladder ∧ P .smul := by
  constructor
  · intro h
    exact ⟨h _, h _, h _, h _, h _, h _, h _⟩
  · rintro ⟨nop, fmul, fred, cswap, clamp, ladder, smul⟩ op
    cases op <;> assumption

theorem Opcode.exists_iff {P : Opcode → Prop} :
    (∃ op, P op) ↔ P .nop ∨ P .fmul ∨ P .fred ∨ P .cswap ∨ P .clamp ∨ P .ladder ∨ P .smul := by
  simpa only [not_forall, not_not, not_and_or] using not_congr (Opcode.forall_iff (P := fun op => ¬P op))

/-- Every row fixes `OP`, so a word lies in the row of its own opcode only (R85). -/
theorem opcodeOf?_of_masked {w : Word} {op : Opcode} (h : w &&& op.maskWord = op.matchWord) :
    opcodeOf? (opField w) = some op := by
  have row : op.maskWord.extractLsb' 0 4 = BitVec.allOnes 4 ∧ op.matchWord.extractLsb' 0 4 = op.code := by
    cases op <;> decide
  rw [opField, extractLsb'_of_masked h 0 4 row.1, row.2, opcodeOf?_code]

/-- The four `OP` bits name an opcode up to 6 (R84). -/
theorem opcodeOf?_eq_none_iff {c : BitVec 4} : opcodeOf? c = none ↔ 6 < c.toNat := by
  revert c
  decide

theorem rdField_eq_rs3Field_iff {w : Word} :
    rdField w = rs3Field w ↔ w.extractLsb' 8 3 = w.extractLsb' 20 3 :=
  BitVec.toFin_inj

/-- A word is legal exactly when it lies in a row and meets the row's extra condition (R85). -/
theorem exists_decodeWord_eq_command_iff {w : Word} : (∃ i, decodeWord w = .command i) ↔
    ∃ op : Opcode, w &&& op.maskWord = op.matchWord ∧ ¬(op = .ladder ∧ rdField w = rs3Field w) := by
  constructor
  · rintro ⟨i, h⟩
    obtain ⟨op, -, row, destinations, -⟩ := decodeWord_eq_command_iff.mp h
    exact ⟨op, row, destinations⟩
  · rintro ⟨op, row, destinations⟩
    exact ⟨_, decodeWord_eq_command_iff.mpr ⟨op, opcodeOf?_of_masked row, row, destinations, rfl⟩⟩

/-- Settles O3: the rows' masks and matches, one opcode after the other. -/
theorem legalWordsAreTheTableRows : Obligations.LegalWordsAreTheTableRows := by
  intro w
  rw [exists_decodeWord_eq_command_iff, Opcode.exists_iff, rdField_eq_rs3Field_iff]
  simp [Opcode.maskWord, Opcode.matchWord]

/-! ## Rejected words -/

/-- The three rejections in the order of the checks (R86). -/
theorem decodeWord_eq_reject_iff {w : Word} {c : ErrorCode} : decodeWord w = .reject c ↔
    (opcodeOf? (opField w) = none ∧ c = .illegalOpcode) ∨
    ∃ op, opcodeOf? (opField w) = some op ∧
      ((w &&& op.maskWord ≠ op.matchWord ∧ c = .reservedField) ∨
       (w &&& op.maskWord = op.matchWord ∧ (op = .ladder ∧ rdField w = rs3Field w) ∧ c = .operandConflict)) := by
  unfold decodeWord
  cases opcodeOf? (opField w) with
  | none => simp [eq_comm]
  | some op =>
    simp only [reduceCtorEq, false_and, false_or, Option.some.injEq, exists_eq_left', ne_eq, ite_not]
    split_ifs with row destinations
    · obtain ⟨rfl, equal⟩ := destinations
      simp [row, equal, eq_comm]
    · simp [row, destinations]
    · simp [row, eq_comm]

/-- `ILLEGAL_OPCODE` (R203). -/
theorem decodeWord_eq_illegalOpcode_iff {w : Word} :
    decodeWord w = .reject .illegalOpcode ↔ opcodeOf? (opField w) = none := by
  simp [decodeWord_eq_reject_iff]

/-- `OPERAND_CONFLICT`: a word of `LADDER`'s row with one destination (R207). -/
theorem decodeWord_eq_operandConflict_iff {w : Word} : decodeWord w = .reject .operandConflict ↔
    w &&& Opcode.ladder.maskWord = Opcode.ladder.matchWord ∧ rdField w = rs3Field w := by
  simp only [decodeWord_eq_reject_iff, reduceCtorEq, and_false, false_or, and_true]
  constructor
  · rintro ⟨_, -, row, rfl, destinations⟩
    exact ⟨row, destinations⟩
  · rintro ⟨row, destinations⟩
    exact ⟨_, opcodeOf?_of_masked row, row, rfl, destinations⟩

/-- `RESERVED_FIELD`: a word with a legal `OP` that lies in no row, its own opcode's being the only candidate (R204). -/
theorem decodeWord_eq_reservedField_iff {w : Word} : decodeWord w = .reject .reservedField ↔
    opcodeOf? (opField w) ≠ none ∧ ∀ op : Opcode, w &&& op.maskWord ≠ op.matchWord := by
  simp only [decodeWord_eq_reject_iff, reduceCtorEq, and_false, false_or, or_false, and_true]
  constructor
  · rintro ⟨op, ho, noRow⟩
    refine ⟨by simp [ho], fun other row => ?_⟩
    cases ho.symm.trans (opcodeOf?_of_masked row)
    exact noRow row
  · rintro ⟨legal, noRow⟩
    obtain ⟨op, ho⟩ := Option.ne_none_iff_exists'.mp legal
    exact ⟨op, ho, noRow op⟩

/-- Settles O4: the three codes, each by the check that fails. -/
theorem rejectedWordsHaveTheirCode : Obligations.RejectedWordsHaveTheirCode := by
  intro w
  refine ⟨?illegalOpcode, ?operandConflict, ?reservedField⟩
  case illegalOpcode => exact decodeWord_eq_illegalOpcode_iff.trans opcodeOf?_eq_none_iff
  case operandConflict =>
    exact decodeWord_eq_operandConflict_iff.trans (and_congr_right' rdField_eq_rs3Field_iff)
  case reservedField =>
    rw [decodeWord_eq_reservedField_iff, Opcode.forall_iff, ne_eq, opcodeOf?_eq_none_iff, not_lt]
    rfl

end Sys2Proof
end

section
/-! SUPPORT. Acceptance, and the engine steps of a command counted down to its completion. -/

namespace Sys2Proof.Machine
open Sys2Proof.Claims

/-! ## Acceptance -/

/-- Settles O30: `exec` of a well-formed command in a ready block is its acceptance. -/
theorem acceptanceLatchesTheOperands : Obligations.AcceptanceLatchesTheOperands :=
  fun s i wf ⟨noError, idle⟩ => ⟨exec_of_ready i s wf noError idle, lat_pos i.opcode⟩

/-! ## Engine steps -/

/-- Completion sets the registers one after the other (R103). -/
theorem commitWrites_eq_foldl (ws : List (Reg × XWord)) (x : Regs) :
    commitWrites ws x = ws.foldl (fun x w => x.set w.1.val w.2) x := by
  induction ws generalizing x with
  | nil => rfl
  | cons w ws ih => exact ih (writeX x w.1 w.2)

/-- Settles O31: the two ways of an engine step, before the last and the last. -/
theorem engineStepsCountDownAndCommit : Obligations.EngineStepsCountDownAndCommit := by
  intro s cur p n
  constructor <;> intro engine <;> rw [onEvent_eq, deliver]
  · rw [engineStep_more s.block engine]
  · rw [engineStep_last s.block engine (Nat.le_refl 1), complete, commitWrites_eq_foldl]

/-- With `k + n + 1` engine steps left, `k` of them leave `n + 1` and change nothing else (R103). -/
theorem afterEngineSteps_counting {s : State} {cur : Word} {p : Pending} {k n : Nat}
    (h : s.block.engine = .busy cur p (k + n + 1)) :
    afterEngineSteps k s = .next { s with block := { s.block with engine := .busy cur p (n + 1) } } := by
  induction k generalizing s with
  | zero => rw [Nat.zero_add] at h; rw [← h]; rfl
  | succ k ih =>
    have more : s.block.engine = .busy cur p (k + n + 2) := by rw [h]; congr 1; omega
    rw [afterEngineSteps_succ, engineStep_more s.block more, ih rfl]

/-- `LAT(op)` engine steps after acceptance, with no event between them, the command is complete (R103, R105). -/
theorem afterEngineSteps_lat {s : State} {cur : Word} {p : Pending} {op : Opcode}
    (h : s.block.engine = .busy cur p (Config.lat op)) :
    afterEngineSteps (Config.lat op) s = .next { s with block := complete p s.block } := by
  obtain ⟨n, hn⟩ := Nat.exists_eq_add_of_le' (lat_pos op)
  rw [hn] at h ⊢
  exact afterEngineSteps_remaining h

/-- Settles O32: fewer steps than `LAT(op)` only count down from the accepted state, and `LAT(op)` complete it. -/
theorem commandsCompleteAfterExactlyLatSteps : Obligations.CommandsCompleteAfterExactlyLatSteps := by
  rintro s a i wf ⟨noError, idle⟩ issued
  obtain rfl := Host.Outcome.next.inj ((exec_of_ready i s wf noError idle).symm.trans issued)
  constructor
  · intro k hk
    obtain ⟨n, hn⟩ := Nat.exists_eq_add_of_lt hk
    exact ⟨_, afterEngineSteps_counting (n := n) (by rw [accept_engine, hn]), rfl, rfl, rfl, rfl⟩
  · exact ⟨_, afterEngineSteps_lat rfl, rfl, rfl, rfl, rfl, rfl⟩

/-- Settles O37: `NOP` is accepted with no writes and completes as every command does. -/
theorem nopChangesOnlyTheLifeCycleBits : Obligations.NopChangesOnlyTheLifeCycleBits :=
  fun s ⟨noError, idle⟩ =>
    ⟨exec_of_ready .nop s rfl noError idle, afterEngineSteps_lat (s := accepted .nop [] 0 s) rfl⟩

end Sys2Proof.Machine
end

section
/-! SUPPORT. The command in flight under any events but reset: host accesses leave it as it is, engine steps count it
down, and it is complete when they run out or at the completion event. -/

namespace Sys2Proof.Machine
open Sys2Proof.Claims

/-! ## Every event is answered -/

theorem writeCommand_next (w : Word) (s : State) : ∃ b, writeCommand w s = .next { s with block := b } := by
  unfold writeCommand
  split
  · exact ⟨_, rfl⟩
  · exact exec_next _ s

/-- An access is answered by a next state, and takes no waiting event (R200, R211). -/
theorem accessWindow_next (off : Offset) (a : Access) (s : State) :
    ∃ b d, accessWindow off a s = .next { block := b, inputs := s.inputs, readData := d } := by
  cases a with
  | read n => unfold accessWindow; dsimp only; split <;> exact ⟨_, _, rfl⟩
  | write n v =>
    unfold accessWindow
    dsimp only
    split_ifs
    · obtain ⟨b, hb⟩ := writeCommand_next (v.setWidth 32) s
      exact ⟨b, _, hb⟩
    · exact ⟨_, _, rfl⟩
    · exact ⟨_, _, rfl⟩

/-- An event is answered by a next state, and takes no waiting event (R69, R200). -/
theorem deliver_next (e : Event) (s : State) :
    ∃ b d, deliver e s = .next { block := b, inputs := s.inputs, readData := d } := by
  cases e with
  | window off a => exact accessWindow_next off a s
  | host addr a =>
    unfold deliver
    dsimp only
    split
    · exact accessWindow_next _ a s
    · exact ⟨_, _, rfl⟩
  | engine => exact ⟨_, _, rfl⟩
  | completion => exact ⟨_, _, rfl⟩
  | reset => exact ⟨_, _, rfl⟩

/-- A run's first step takes the first waiting event. -/
theorem run_cons (k : Nat) {e : Event} {rest : List Event} {b : Block} {d : Option Word} {t : State}
    (h : deliver e { block := b, inputs := rest, readData := d } = .next t) :
    Sys2Proof.core.run (k + 1) { block := b, inputs := e :: rest, readData := d } = Sys2Proof.core.run k t :=
  run_succ k h

/-! ## One event while a command is in flight -/

/-- `b'` is still in the command that `b` is in, with `n` engine steps left: the results held, the registers,
`CMD_LAST` and `STEPS` are as in `b`. -/
structure StillInFlight (cur : Word) (p : Pending) (n : Nat) (b b' : Block) : Prop where
  engine : b'.engine = .busy cur p n
  x : b'.x = b.x
  cmdLast : b'.cmdLast = b.cmdLast
  steps : b'.steps = b.steps

section inFlight
variable {cur : Word} {p : Pending} {n m : Nat} {b b' b'' : Block}

theorem StillInFlight.trans (h : StillInFlight cur p n b b') (h' : StillInFlight cur p m b' b'') :
    StillInFlight cur p m b b'' :=
  ⟨h'.engine, h'.x.trans h.x, h'.cmdLast.trans h.cmdLast, h'.steps.trans h.steps⟩

/-- Only the engine's events and reset touch a command in flight: a command word and an operand write are turned
away while busy (R101, R205, R206). -/
theorem BlockChange.stillInFlight {e : Event} (h : BlockChange e b b') (inFlight : b.engine = .busy cur p n)
    (noEngine : e ≠ .engine) (noCompletion : e ≠ .completion) (noReset : e ≠ .reset) :
    StillInFlight cur p n b b' := by
  have busy : b.busy = true := (busy_eq_true_iff b).mpr ⟨cur, p, n, inFlight⟩
  cases h with
  | errorRaised =>
    exact ⟨(raiseError_engine ..).trans inFlight, raiseError_x .., raiseError_cmdLast .., raiseError_steps ..⟩
  | statusWritten =>
    exact ⟨(writeStatus_engine ..).trans inFlight, writeStatus_x .., writeStatus_cmdLast .., writeStatus_steps ..⟩
  | commandAccepted _ isReady => exact absurd (busy.symm.trans isReady.2) (by decide)
  | operandWritten _ _ idle => exact absurd (busy.symm.trans idle) (by decide)
  | engineTicked turn => exact absurd turn noEngine
  | commandCompleted turn => exact absurd turn (by simp [noEngine, noCompletion])
  | wasReset event => exact absurd event noReset
  | _ => exact ⟨inFlight, rfl, rfl, rfl⟩

/-- An event other than reset completes the command in flight, by the completion event or the last engine step, or
leaves it in flight with an engine step counted off (R103). -/
theorem deliver_inFlight {e : Event} {s : State} (inFlight : s.block.engine = .busy cur p n) (noReset : e ≠ .reset) :
    ((e = .completion ∨ e = .engine ∧ n ≤ 1) ∧
      deliver e s = .next { s with block := complete p s.block }) ∨
    ∃ b' d, deliver e s = .next { block := b', inputs := s.inputs, readData := d } ∧
      StillInFlight cur p (n - [e].count .engine) s.block b' := by
  by_cases hc : e = .completion
  · subst hc
    exact .inl ⟨.inl rfl, by rw [deliver, finishCommand_busy s.block inFlight]⟩
  by_cases he : e = .engine
  · subst he
    obtain last | ⟨r, rfl⟩ : n ≤ 1 ∨ ∃ r, n = r + 2 := by
      rcases n with _ | _ | r <;> simp
    · exact .inl ⟨.inr ⟨rfl, last⟩, by rw [deliver, engineStep_last s.block inFlight last]⟩
    · have ticked : deliver .engine s = .next { s with block := { s.block with engine := .busy cur p (r + 1) } } := by
        rw [deliver, engineStep_more s.block inFlight]
      exact .inr ⟨_, _, ticked, rfl, rfl, rfl, rfl⟩
  · obtain ⟨b', d, answer⟩ := deliver_next e s
    have still := (deliver_blockChange answer).stillInFlight inFlight he hc noReset
    rw [List.count_eq_zero_of_not_mem (by simpa using Ne.symm he)]
    exact .inr ⟨b', d, answer, still⟩

/-! ## Many events -/

/-- Events that are neither reset nor completion, with fewer engine steps among them than are left, leave the command
in flight. -/
theorem run_inFlight (evs rest : List Event) {s : State} (inFlight : s.block.engine = .busy cur p n)
    (noReset : .reset ∉ evs) (noCompletion : .completion ∉ evs) (fewer : evs.count .engine < n) :
    ∃ t, Sys2Proof.core.run evs.length { s with inputs := evs ++ rest } = .next t ∧ t.inputs = rest ∧
      StillInFlight cur p (n - evs.count .engine) s.block t.block := by
  induction evs generalizing s n with
  | nil => exact ⟨_, rfl, rfl, inFlight, rfl, rfl, rfl⟩
  | cons e evs ih =>
    simp only [List.mem_cons, not_or] at noReset noCompletion
    rw [← List.singleton_append, List.count_append] at fewer ⊢
    obtain ⟨ends, -⟩ | ⟨b', d, answer, still⟩ :=
      deliver_inFlight (s := { s with inputs := evs ++ rest }) inFlight (Ne.symm noReset.1)
    · obtain completion | ⟨rfl, last⟩ := ends
      · exact absurd completion.symm noCompletion.1
      · rw [List.count_singleton_self] at fewer
        omega
    · obtain ⟨t, run, waiting, still'⟩ :=
        ih (s := { s with block := b', readData := d }) still.engine noReset.2 noCompletion.2 (by omega)
      rw [← Nat.sub_sub]
      exact ⟨t, (run_cons evs.length answer).trans run, waiting, still.trans still'⟩

/-- With no reset waiting, the command in flight completes at one of the waiting events, or right after them, on the
registers as they were (R106, R241). -/
theorem run_completes {s : State} (inFlight : s.block.engine = .busy cur p n) (noReset : .reset ∉ s.inputs) :
    ∃ k t b, k ≤ s.inputs.length + 1 ∧ Sys2Proof.core.run k s = .next t ∧ t.block = complete p b ∧
      b.x = s.block.x := by
  obtain ⟨block, inputs, readData⟩ := s
  induction inputs generalizing block readData n with
  | nil =>
    exact ⟨1, _, _, Nat.le_refl 1, run_succ 0 (step_nil _ rfl), finishCommand_busy block inFlight, rfl⟩
  | cons e rest ih =>
    simp only [List.mem_cons, not_or] at noReset
    obtain ⟨-, answer⟩ | ⟨block', readData', answer, still⟩ :=
      deliver_inFlight (s := ⟨block, rest, readData⟩) inFlight (Ne.symm noReset.1)
    · exact ⟨1, _, _, Nat.le_add_left .., run_cons 0 answer, rfl, rfl⟩
    · obtain ⟨k, t, b, hk, run, completed, x⟩ := ih block' readData' still.engine noReset.2
      exact ⟨k + 1, t, b, Nat.succ_le_succ hk, (run_cons k answer).trans run, completed, x.trans still.x⟩

end inFlight

/-- Settles O34: each event of the list leaves the command in flight, and an engine step is counted off. -/
theorem commandInFlightIsUndisturbed : Obligations.CommandInFlightIsUndisturbed := by
  intro s cur p n evs rest inFlight noReset noCompletion fewer
  obtain ⟨t, run, waiting, engine, x, cmdLast, steps⟩ := run_inFlight evs rest inFlight noReset noCompletion fewer
  exact ⟨t, run, waiting, engine, x, cmdLast, steps⟩

/-- Settles O35: the state the run of `run_completes` ends in is that of a completion. -/
theorem busyEngineEventuallyCompletes : Obligations.BusyEngineEventuallyCompletes := by
  intro s cur p n inFlight noReset
  obtain ⟨k, t, b, hk, run, completed, x⟩ := run_completes inFlight noReset
  refine ⟨k, t, hk, run, ?_, ?_, ?_, ?_⟩ <;> rw [completed]
  · rw [complete_engine]
  · rw [complete_done]
  · rw [complete_x, x]
  · rw [complete_steps]

end Sys2Proof.Machine
end

section
/-! SUPPORT. Operand values stay out of what is public: every event's public outcome is that of its public part at
the public part of the block. -/

namespace Sys2Proof.Machine
open Sys2Proof.Claims

/-! ## The public part of a block -/

section publicBlock
variable (b : Block)

@[simp] theorem publicBlock_err : (publicBlock b).err = b.err := rfl
@[simp] theorem publicBlock_engine : (publicBlock b).engine = publicEngine b.engine := rfl

@[simp] theorem publicEngine_publicEngine (e : Engine) : publicEngine (publicEngine e) = publicEngine e := by
  cases e <;> simp [publicEngine]

@[simp] theorem publicBlock_publicBlock : publicBlock (publicBlock b) = publicBlock b := by
  simp [publicBlock]

@[simp] theorem publicBlock_busy : (publicBlock b).busy = b.busy := by
  unfold Block.busy
  rw [publicBlock_engine]
  cases b.engine <;> rfl

/-- `STATUS` shows nothing of the operand values (R44). -/
theorem statusWord_publicBlock : statusWord (publicBlock b) = statusWord b := by
  rw [statusWord, publicBlock_busy]; rfl

theorem irq_publicBlock : irq (publicBlock b) = irq b := rfl

/-! ## The operations -/

theorem raiseError_publicBlock (c : ErrorCode) (w : Word) :
    raiseError c w (publicBlock b) = publicBlock (raiseError c w b) := by
  unfold raiseError
  rw [publicBlock_err]
  split <;> rfl

theorem dropCommand_publicBlock : dropCommand (publicBlock b) = publicBlock (dropCommand b) := rfl

theorem writeStatus_publicBlock (v : Word) : writeStatus v (publicBlock b) = publicBlock (writeStatus v b) := by
  rw [writeStatus_eq, writeStatus_eq]; rfl

/-- The step count of a command does not depend on its operands (R47). -/
theorem effectOf_steps_eq (i : Instr) (x y : Regs) : (effectOf i x).steps = (effectOf i y).steps := by
  cases i <;> rfl

/-- The results of a command, their values left out, are its destinations and its step count (R33, R102). -/
theorem accept_effectOf_publicBlock (w : Word) (i : Instr) :
    publicBlock (accept w i.opcode (effectOf i (publicBlock b).x) (publicBlock b)) =
      publicBlock (accept w i.opcode (effectOf i b.x) b) := by
  have writes (x : Regs) : (effectOf i x).writes.map (fun w => (w.1, (0 : XWord))) =
      (destinationsOf i).map fun r => (r, 0) := by
    rw [← effectOf_destinations i x, List.map_map]; rfl
  simp only [publicBlock, accept, publicEngine, writes, effectOf_steps_eq i _ b.x]

theorem complete_publicBlock (p q : Pending) (h : p.steps = q.steps) :
    publicBlock (complete p (publicBlock b)) = publicBlock (complete q b) := by
  simp [complete, publicBlock, h]

theorem engineStep_publicBlock : publicBlock (engineStep (publicBlock b)) = publicBlock (engineStep b) := by
  cases he : b.engine with
  | idle => simp [engineStep, publicEngine, he]
  | busy cur p r =>
    simp only [engineStep, publicBlock_engine, he, publicEngine]
    split
    · exact complete_publicBlock b _ p rfl
    · simp [publicBlock, publicEngine]

theorem finishCommand_publicBlock : publicBlock (finishCommand (publicBlock b)) = publicBlock (finishCommand b) := by
  cases he : b.engine with
  | idle => simp [finishCommand, publicEngine, he]
  | busy cur p r =>
    simp only [finishCommand, publicBlock_engine, he, publicEngine]
    exact complete_publicBlock b _ p rfl

theorem issueChecks_publicBlock (w : Word) {passed passed' : Block} (h : publicBlock passed' = publicBlock passed) :
    publicBlock (issueChecks w (publicBlock b) passed') = publicBlock (issueChecks w b passed) := by
  unfold issueChecks
  rw [publicBlock_err, publicBlock_busy]
  split_ifs
  · rw [dropCommand_publicBlock, publicBlock_publicBlock]
  · rw [raiseError_publicBlock, publicBlock_publicBlock]
  · exact h

/-- Only the operand window takes a value from a write that the public part of the write lacks (R64). -/
theorem writeRegister_publicBlock (off : Offset) (v v' : Word) (h : isOperandOffset off = false → v' = v) :
    publicBlock (writeRegister off v' (publicBlock b)) = publicBlock (writeRegister off v b) := by
  have same (c : Offset) (hc : off = c) (notOperand : isOperandOffset c = false) : v' = v := h (hc ▸ notOperand)
  unfold writeRegister
  split_ifs with h4 h8 operand
  · rw [same _ h4 rfl, writeStatus_publicBlock, publicBlock_publicBlock]
  · rw [same _ h8 rfl]; simp [writeInten, publicBlock]
  · unfold writeOperand
    rw [publicBlock_busy]
    split
    · rw [raiseError_publicBlock, publicBlock_publicBlock]
    · simp [publicBlock]
  · exact publicBlock_publicBlock b

end publicBlock

/-! ## Accesses and events -/

/-- A state with the public part of the block `b`, and nothing at the port. -/
def publicState (b : Block) : State := { block := publicBlock b, inputs := [], readData := none }

/-- The public part of the block an outcome leaves. -/
def publicOutcome : Host.Outcome State Fault Refusal → Option Block
  | .next s => some (publicBlock s.block)
  | .fault _ => none
  | .refused _ => none

@[simp] theorem publicOutcome_next (s : State) : publicOutcome (.next s) = some (publicBlock s.block) := rfl

theorem rejectWord_public (c : ErrorCode) (w : Word) (s : State) :
    publicOutcome (.next (rejectWord c w (publicState s.block))) = publicOutcome (.next (rejectWord c w s)) :=
  congrArg some (issueChecks_publicBlock s.block w
    (by rw [publicState, raiseError_publicBlock, publicBlock_publicBlock]))

theorem exec_public (i : Instr) (s : State) :
    publicOutcome (exec i (publicState s.block)) = publicOutcome (exec i s) := by
  cases wf : i.wellFormed with
  | true =>
    rw [exec_of_wellFormed i _ wf, exec_of_wellFormed i _ wf]
    exact congrArg some (issueChecks_publicBlock s.block _ (accept_effectOf_publicBlock s.block _ i))
  | false =>
    rw [exec_of_illFormed i _ wf, exec_of_illFormed i _ wf]
    exact rejectWord_public _ _ s

theorem writeCommand_public (w : Word) (s : State) :
    publicOutcome (writeCommand w (publicState s.block)) = publicOutcome (writeCommand w s) := by
  unfold writeCommand
  split
  · exact rejectWord_public _ w s
  · exact exec_public _ s

theorem rejectAccess_public (off : Offset) (s : State) :
    publicBlock (rejectAccess off (publicState s.block)).block = publicBlock (rejectAccess off s).block := by
  rw [rejectAccess, publicState, raiseError_publicBlock, publicBlock_publicBlock]; rfl

/-- A host access does the same, in public, without the operand values of the block and of the access (R105). -/
theorem accessWindow_public (off : Offset) (a : Access) (s : State) :
    publicOutcome (accessWindow off (publicAccess off a) (publicState s.block)) =
      publicOutcome (accessWindow off a s) := by
  cases a with
  | read n =>
    simp only [publicAccess, accessWindow]
    split
    · exact congrArg some (publicBlock_publicBlock s.block)
    · exact congrArg some (rejectAccess_public off s)
  | write n v =>
    obtain ⟨v', access, same⟩ : ∃ v' : BitVec (8 * n), publicAccess off (.write n v) = .write n v' ∧
        (isOperandOffset off = false → v' = v) := by
      unfold publicAccess
      dsimp only
      split <;> simp_all
    rw [access]
    simp only [accessWindow]
    split_ifs with _ cmd
    · rw [same (by rw [cmd]; rfl)]
      exact writeCommand_public _ s
    · exact congrArg some (writeRegister_publicBlock s.block off _ _ fun h => by rw [same h])
    · exact congrArg some (rejectAccess_public off s)

/-- An event does the same, in public, without the operand values of the block and of the event. -/
theorem deliver_public (e : Event) (s : State) :
    publicOutcome (deliver (publicEvent e) (publicState s.block)) = publicOutcome (deliver e s) := by
  cases e with
  | window off a => exact accessWindow_public off a s
  | host addr a =>
    cases h : windowOffset? addr with
    | none =>
      simp only [publicEvent, deliver, h]
      exact congrArg some (publicBlock_publicBlock s.block)
    | some off =>
      simp only [publicEvent, deliver, h]
      exact accessWindow_public off a s
  | engine => exact congrArg some (engineStep_publicBlock s.block)
  | completion => exact congrArg some (finishCommand_publicBlock s.block)
  | reset => rfl

/-! ## Steps and runs -/

/-- Two events with the same public part keep the agreement of two states. -/
theorem deliver_publicView {e f : Event} {s t : State} (event : publicEvent e = publicEvent f)
    (view : publicView s = publicView t) :
    ∃ s' t', deliver e s = .next s' ∧ deliver f t = .next t' ∧ publicView s' = publicView t' := by
  obtain ⟨block, inputs⟩ := Prod.mk.inj view
  obtain ⟨b, d, answer⟩ := deliver_next e s
  obtain ⟨b', d', answer'⟩ := deliver_next f t
  have outcome : publicOutcome (deliver e s) = publicOutcome (deliver f t) := calc
    _ = publicOutcome (deliver (publicEvent e) (publicState s.block)) := (deliver_public e s).symm
    _ = publicOutcome (deliver (publicEvent f) (publicState t.block)) := by
      rw [event, publicState, block, publicState]
    _ = publicOutcome (deliver f t) := deliver_public f t
  rw [answer, answer'] at outcome
  exact ⟨_, _, answer, answer', Prod.ext (Option.some.inj outcome) inputs⟩

/-- One step keeps the agreement of two states. -/
theorem step_publicView {s t : State} (view : publicView s = publicView t) :
    ∃ s' t', step s = .next s' ∧ step t = .next t' ∧ publicView s' = publicView t' := by
  obtain ⟨block, inputs, d⟩ := s
  obtain ⟨block', inputs', d'⟩ := t
  obtain ⟨blocks, waiting⟩ := Prod.mk.inj view
  cases inputs with
  | nil =>
    obtain rfl := List.map_eq_nil_iff.mp waiting.symm
    exact deliver_publicView (e := .completion) rfl view
  | cons e rest =>
    obtain ⟨f, rest', rfl, event, rests⟩ := List.map_eq_cons_iff.mp waiting.symm
    exact deliver_publicView (s := ⟨block, rest, d⟩) (t := ⟨block', rest', d'⟩) event.symm
      (Prod.ext blocks rests.symm)

/-- Every number of steps keeps the agreement of two states. -/
theorem run_publicView (k : Nat) {s t : State} (view : publicView s = publicView t) :
    ∃ s' t', Sys2Proof.core.run k s = .next s' ∧ Sys2Proof.core.run k t = .next t' ∧
      publicView s' = publicView t' := by
  induction k generalizing s t with
  | zero => exact ⟨s, t, rfl, rfl, view⟩
  | succ k ih =>
    obtain ⟨s₁, t₁, hs, ht, view₁⟩ := step_publicView view
    rw [run_succ k hs, run_succ k ht]
    exact ih view₁

/-- Settles O36: the agreement is kept by every number of steps, and `STATUS` and `irq` are read off the public part
of the block. -/
theorem publicBehaviourIgnoresOperandValues : Obligations.PublicBehaviourIgnoresOperandValues := by
  intro s t k view
  obtain ⟨s', t', hs, ht, view'⟩ := run_publicView k view
  have block : publicBlock s'.block = publicBlock t'.block := congrArg Prod.fst view'
  refine ⟨s', t', hs, ht, view', ?_, ?_⟩
  · rw [← statusWord_publicBlock, block, statusWord_publicBlock]
  · rw [← irq_publicBlock, block, irq_publicBlock]

end Sys2Proof.Machine
end

section
/-! SUPPORT. The field commands and the exchange, from acceptance to completion, and the range of their results. -/

namespace Sys2Proof.Machine
open Sys2Proof.Claims

/-! ## From acceptance to completion -/

/-- A well-formed command with the effect `(ws, n)` is accepted with it, and commits it `LAT(op)` engine steps later
(R101, R103). -/
theorem exec_accepted_then_completed {s : State} {i : Instr} {ws : List (Reg × XWord)} {n : Nat}
    (wf : i.wellFormed = true) (hready : ready s.block) (effect : effectOf i s.block.x = { writes := ws, steps := n }) :
    exec i s = .next (accepted i ws n s) ∧
    afterEngineSteps (Config.lat i.opcode) (accepted i ws n s) =
      .next (completed i (commitWrites ws s.block.x) (BitVec.ofNat 32 n) s) := by
  obtain ⟨noError, idle⟩ := hready
  constructor
  · rw [exec_of_ready i s wf noError idle, effect]; rfl
  · exact afterEngineSteps_lat (s := accepted i ws n s) rfl

/-! ## Field commands -/

/-- Settles O38: the one write of `FMUL` is the canonical product. -/
theorem fmulWritesTheCanonicalProduct : Obligations.FmulWritesTheCanonicalProduct := by
  intro s rd rs1 rs2 hready
  refine ⟨_, ?_, exec_accepted_then_completed (i := .fmul rd rs1 rs2) rfl hready rfl⟩
  rw [enc_canon_toNat, ← Int.natCast_mul, canon_natCast, val_eq, val_eq]
  rfl

/-- Settles O39: the one write of `FRED` is the canonical residue. -/
theorem fredWritesTheCanonicalResidue : Obligations.FredWritesTheCanonicalResidue := by
  intro s rd rs1 hready
  refine ⟨_, ?_, exec_accepted_then_completed (i := .fred rd rs1) rfl hready rfl⟩
  rw [enc_canon_toNat, canon_natCast, val_eq]
  rfl

/-- Settles O45: each result is an encoded `canon`, which is below `p`. -/
theorem fieldResultsAreCanonical : Obligations.FieldResultsAreCanonical := by
  have below : ∀ v : Int, (enc (canon v)).toNat < 2 ^ 255 - 19 :=
    fun v => (enc_canon_toNat v).trans_lt (canon_lt v)
  intro i x field w hw
  cases i with
  | fmul | fred | smul => obtain rfl := List.mem_singleton.mp hw; exact below _
  | ladder =>
    obtain rfl | hw := List.mem_cons.mp hw
    · exact below _
    · obtain rfl := List.mem_singleton.mp hw; exact below _
  | nop | cswap | clamp => simp [Instr.opcode] at field

/-! ## The exchange -/

/-- The masked exchange of R142 takes the other word when the bit is 1. -/
theorem xor_swapMask (bit : Bool) (a b : XWord) : a ^^^ (swapMask bit &&& (a ^^^ b)) = if bit then b else a := by
  cases bit with
  | false => simp [swapMask]
  | true =>
    have ones : swapMask true = BitVec.allOnes 256 := by decide
    rw [ones, BitVec.allOnes_and, ← BitVec.xor_assoc, BitVec.xor_self, BitVec.zero_xor, if_pos rfl]

/-- The writes of `CSWAP`, the mask gone. -/
theorem effectCswap_eq (rd rs1 rs2 : Reg) (k : BitVec 8) (x : Regs) :
    effectCswap rd rs1 rs2 k x =
      { writes := [(rd, if (readX x rs2).getLsbD k.toNat then readX x rs1 else readX x rd),
          (rs1, if (readX x rs2).getLsbD k.toNat then readX x rd else readX x rs1)]
        steps := 0 } := by
  rw [effectCswap, xor_swapMask, BitVec.xor_comm (readX x rd), xor_swapMask]

/-- Settles O40: the writes are the exchanged words, or each register's own word, which changes nothing. -/
theorem cswapExchangesWhenTheBitIsOne : Obligations.CswapExchangesWhenTheBitIsOne := by
  intro s rd rs1 rs2 k hready a b bit ws
  obtain ⟨issued, finished⟩ :=
    exec_accepted_then_completed (i := .cswap rd rs1 rs2 k) rfl hready (effectCswap_eq rd rs1 rs2 k s.block.x)
  have registers : commitWrites ws s.block.x =
      if bit then (s.block.x.set rd.val b).set rs1.val a else s.block.x := by
    cases h : bit with
    | true => simp [ws, h, writeX]
    | false => simp [ws, h, a, b]
  exact ⟨issued, registers ▸ finished⟩

end Sys2Proof.Machine
end

section
/-! SUPPORT. Limb vectors: the value and the range that each limb operation gives, whatever the sizes of its limbs. -/

namespace Sys2Proof.Machine
open Sys2Proof.Claims

/-! ## Values -/

theorem limbValue_append (a b : List Int) :
    limbValue (a ++ b) = limbValue a + 2 ^ (16 * a.length) * limbValue b := by
  induction a with
  | nil => simp [limbValue]
  | cons x a ih => simp only [List.cons_append, limbValue, ih, List.length_cons, Nat.mul_succ, pow_add]; ring

@[simp] theorem addL_length (a b : List Int) : (addL a b).length = min a.length b.length := List.length_zipWith
@[simp] theorem subL_length (a b : List Int) : (subL a b).length = min a.length b.length := List.length_zipWith

theorem addL_eq_addPoly {a b : List Int} (h : a.length = b.length) : addL a b = addPoly a b := by
  induction a generalizing b with
  | nil => obtain rfl := List.length_eq_zero_iff.mp h.symm; rfl
  | cons x a ih =>
    obtain ⟨y, b, rfl⟩ := List.exists_cons_of_length_eq_add_one h.symm
    exact congrArg ((x + y) :: ·) (ih (Nat.succ.inj h))

theorem subL_eq_addL (a b : List Int) : subL a b = addL a (b.map (-1 * ·)) := by
  simp [subL, addL, List.zipWith_map_right, sub_eq_add_neg]

theorem limbValue_addL {a b : List Int} (h : a.length = b.length) :
    limbValue (addL a b) = limbValue a + limbValue b := by
  rw [addL_eq_addPoly h, limbValue_addPoly]

theorem limbValue_subL {a b : List Int} (h : a.length = b.length) :
    limbValue (subL a b) = limbValue a - limbValue b := by
  rw [subL_eq_addL, limbValue_addL (h.trans (List.length_map _).symm), limbValue_map_mul]
  ring

theorem mulPoly_cons_length (x : Int) (a : List Int) {b : List Int} (hb : b ≠ []) :
    (mulPoly (x :: a) b).length = a.length + b.length := by
  have := List.length_pos_of_ne_nil hb
  rw [mulPoly, addPoly_length, List.length_map, List.length_cons]
  induction a generalizing x with
  | nil => rw [mulPoly, List.length_nil]; omega
  | cons y a ih => rw [mulPoly, addPoly_length, List.length_map, List.length_cons, ih y, List.length_cons]; omega

/-- The value of the folded product: its top half comes back times 38 (R131). -/
theorem foldTop_value {t : List Int} (h : 16 ≤ t.length) :
    limbValue (foldTop t) = limbValue t - 2 * prime * limbValue (t.drop 16) := by
  have split := limbValue_append (t.take 16) (t.drop 16)
  rw [List.take_append_drop, List.length_take, min_eq_left h] at split
  rw [foldTop, limbValue_addPoly, limbValue_map_mul, split]
  norm_num [prime]
  ring

theorem foldTop_length {t : List Int} (h : 16 ≤ t.length) (h' : t.length ≤ 32) : (foldTop t).length = 16 := by
  rw [foldTop, addPoly_length, List.length_map, List.length_take, List.length_drop]
  omega

theorem foldTop_mulPoly_length {a b : List Int} (ha : a.length = 16) (hb : b.length = 16) :
    (mulPoly a b).length = 31 ∧ (foldTop (mulPoly a b)).length = 16 := by
  have len : (mulPoly a b).length = 31 := by
    obtain ⟨x, a, rfl⟩ := List.exists_cons_of_length_eq_add_one ha
    rw [mulPoly_cons_length x a (List.ne_nil_of_length_eq_add_one hb), hb, Nat.succ.inj ha]
  exact ⟨len, foldTop_length (by omega) (by omega)⟩

theorem mulL_length {a b : List Int} (ha : a.length = 16) (hb : b.length = 16) : (mulL a b).length = 16 := by
  rw [mulL, carryL_length, carryL_length, (foldTop_mulPoly_length ha hb).2]

/-! ## Digits -/

/-- Every limb is a digit of radix `2^16`. -/
def Digits (l : List Int) : Prop := ∀ x ∈ l, 0 ≤ x ∧ x < 2 ^ 16

theorem digits_cons {x : Int} {l : List Int} : Digits (x :: l) ↔ (0 ≤ x ∧ x < 2 ^ 16) ∧ Digits l :=
  List.forall_mem_cons

theorem Digits.limbValue_range {l : List Int} {n : Nat} (h : Digits l) (len : l.length = n) :
    0 ≤ limbValue l ∧ limbValue l < 2 ^ (16 * n) := by
  subst len
  induction l with
  | nil => decide
  | cons x l ih =>
    obtain ⟨hx, hl⟩ := digits_cons.mp h
    have := ih hl
    rw [List.length_cons, Nat.mul_succ, pow_add, limbValue]
    omega

/-- A carry pass leaves digits (R128). -/
theorem carryChain_digits (c : Int) (l : List Int) : Digits (carryChain c l).1 := by
  induction l generalizing c with
  | nil => exact fun x hx => absurd hx List.not_mem_nil
  | cons x l ih => exact digits_cons.mpr ⟨by omega, ih _⟩

/-- A carry pass moves nothing between digits. -/
theorem Digits.carryChain_eq {l : List Int} (h : Digits l) : carryChain 0 l = (l, 0) := by
  induction l with
  | nil => rfl
  | cons x l ih =>
    obtain ⟨⟨hx, hx'⟩, hl⟩ := digits_cons.mp h
    rw [carryChain, add_zero, Int.ediv_eq_zero_of_lt hx hx', Int.emod_eq_of_lt hx hx', ih hl]

theorem Digits.carryL_eq {l : List Int} (h : Digits l) : carryL l = l := by
  rw [carryL, h.carryChain_eq]
  cases l <;> simp [addToHead]

/-! ## Carrying -/

/-- The quotient and the remainder of the value by `2^256` are what the pass carries out and what it leaves. -/
theorem carryChain_value {o : List Int} (h : o.length = 16) :
    limbValue (carryChain 0 o).1 = limbValue o % 2 ^ 256 ∧ (carryChain 0 o).2 = limbValue o / 2 ^ 256 := by
  have moved := limbValue_carryChain 0 o
  have range := (carryChain_digits 0 o).limbValue_range ((carryChain_length 0 o).trans h)
  rw [h] at moved
  omega

/-- The carry out of limb 15 comes back times 38 (R128). -/
theorem limbValue_carryL {o : List Int} (h : o.length = 16) :
    limbValue (carryL o) = limbValue o % 2 ^ 256 + 38 * (limbValue o / 2 ^ 256) := by
  obtain ⟨rest, out⟩ := carryChain_value h
  have nonempty : (carryChain 0 o).1 ≠ [] := List.ne_nil_of_length_eq_add_one ((carryChain_length 0 o).trans h)
  rw [carryL, limbValue_addToHead _ _ nonempty, rest, out]

theorem carryL_cons (x : Int) (l : List Int) : carryL (x :: l) =
    (x % 2 ^ 16 + 38 * (carryChain (x / 2 ^ 16) l).2) :: (carryChain (x / 2 ^ 16) l).1 := by
  simp [carryL, carryChain, addToHead]

/-- The carries through the 15 limbs above limb 0. -/
theorem carryChain_above {l : List Int} (c : Int) (h : l.length = 15) :
    limbValue (carryChain c l).1 + 2 ^ 240 * (carryChain c l).2 = limbValue l + c ∧
    0 ≤ limbValue (carryChain c l).1 ∧ limbValue (carryChain c l).1 < 2 ^ 240 := by
  have moved := limbValue_carryChain c l
  rw [h] at moved
  exact ⟨moved, (carryChain_digits c l).limbValue_range ((carryChain_length c l).trans h)⟩

theorem reducedLimbs_cons {x : Int} {l : List Int} :
    reducedLimbs (x :: l) ↔ l.length = 15 ∧ (-38 ≤ x ∧ x < 2 ^ 16 + 38) ∧ Digits l := by
  refine and_congr Nat.succ_inj ⟨fun h => ⟨h 0 (Nat.succ_pos _), ?_⟩, fun ⟨hx, hl⟩ i hi => ?_⟩
  · intro y hy
    obtain ⟨i, hi, rfl⟩ := List.getElem_of_mem hy
    exact h (i + 1) (Nat.succ_lt_succ hi)
  · cases i with
    | zero => exact hx
    | succ i => exact hl _ (List.getElem_mem _)

theorem exists_cons_of_reducedLimbs {l : List Int} (h : reducedLimbs l) :
    ∃ x l', l = x :: l' ∧ l'.length = 15 ∧ (-38 ≤ x ∧ x < 2 ^ 16 + 38) ∧ Digits l' := by
  obtain ⟨x, l', rfl⟩ := List.exists_cons_of_length_eq_add_one h.1
  exact ⟨x, l', rfl, reducedLimbs_cons.mp h⟩

theorem reducedLimbs_of_digits {l : List Int} (h : Digits l) (len : l.length = 16) : reducedLimbs l := by
  obtain ⟨x, l, rfl⟩ := List.exists_cons_of_length_eq_add_one len
  obtain ⟨hx, hl⟩ := digits_cons.mp h
  exact reducedLimbs_cons.mpr ⟨Nat.succ.inj len, by omega, hl⟩

/-- A carry pass reduces limbs whose value is out of `[0, 2^256)` by less than `2^256` (R128). -/
theorem carryL_reduced {o : List Int} (len : o.length = 16) (low : -2 ^ 256 ≤ limbValue o)
    (high : limbValue o < 2 * 2 ^ 256) : reducedLimbs (carryL o) := by
  obtain ⟨x, l, rfl⟩ := List.exists_cons_of_length_eq_add_one len
  have len' : l.length = 15 := Nat.succ.inj len
  obtain ⟨moved, range⟩ := carryChain_above (x / 2 ^ 16) len'
  rw [limbValue] at low high
  rw [carryL_cons]
  refine reducedLimbs_cons.mpr ⟨(carryChain_length _ l).trans len', ?_, carryChain_digits _ l⟩
  omega

/-- One carry pass makes digits of reduced limbs: a carry out of limb 15 leaves limb 0 within 38 of the end it is
added back at. -/
theorem carryL_digits {l : List Int} (h : reducedLimbs l) : Digits (carryL l) := by
  obtain ⟨x, l, rfl, len, hx, hl⟩ := exists_cons_of_reducedLimbs h
  obtain ⟨moved, range⟩ := carryChain_above (x / 2 ^ 16) len
  have value := hl.limbValue_range len
  rw [carryL_cons]
  refine digits_cons.mpr ⟨?_, carryChain_digits _ l⟩
  omega

/-! ## Residues -/

theorem limbValue_carryL_modEq {o : List Int} (h : o.length = 16) :
    limbValue (carryL o) ≡ limbValue o [ZMOD prime] := by
  refine Int.modEq_iff_dvd.mpr ⟨2 * (limbValue o / 2 ^ 256), ?_⟩
  rw [limbValue_carryL h, show (prime : Int) = 2 ^ 255 - 19 from rfl]
  omega

theorem limbValue_mulL_modEq {a b : List Int} (ha : a.length = 16) (hb : b.length = 16) :
    limbValue (mulL a b) ≡ limbValue a * limbValue b [ZMOD prime] := by
  obtain ⟨lenProduct, lenFold⟩ := foldTop_mulPoly_length ha hb
  have folded : limbValue (foldTop (mulPoly a b)) ≡ limbValue a * limbValue b [ZMOD prime] := by
    rw [← limbValue_mulPoly, foldTop_value (by omega)]
    exact Int.modEq_iff_dvd.mpr ⟨2 * limbValue ((mulPoly a b).drop 16), by ring⟩
  calc limbValue (mulL a b)
    _ ≡ limbValue (carryL (foldTop (mulPoly a b))) [ZMOD prime] :=
      limbValue_carryL_modEq ((carryL_length _).trans lenFold)
    _ ≡ limbValue (foldTop (mulPoly a b)) [ZMOD prime] := limbValue_carryL_modEq lenFold
    _ ≡ limbValue a * limbValue b [ZMOD prime] := folded

/-- Settles O51: carrying and multiplying are congruences, adding and subtracting are exact. -/
theorem limbPrimitivesKeepTheResidue : Obligations.LimbPrimitivesKeepTheResidue := fun a _ ha hb =>
  ⟨limbValue_carryL_modEq ha, limbValue_addL (ha.trans hb.symm), limbValue_subL (ha.trans hb.symm),
    limbValue_mulL_modEq ha hb, pow_two (limbValue a) ▸ limbValue_mulL_modEq ha ha⟩

/-! ## Ranges -/

/-- Every limb is at most `M` in magnitude. -/
def LimbsWithin (M : Int) (l : List Int) : Prop := ∀ x ∈ l, -M ≤ x ∧ x ≤ M

theorem limbsWithin_cons {M x : Int} {l : List Int} : LimbsWithin M (x :: l) ↔ (-M ≤ x ∧ x ≤ M) ∧ LimbsWithin M l :=
  List.forall_mem_cons

theorem LimbsWithin.mono {M N : Int} {l : List Int} (h : LimbsWithin M l) (le : M ≤ N) : LimbsWithin N l := by
  intro x hx
  have := h x hx
  omega

theorem limbsWithin_addPoly {M N : Int} {a b : List Int} (hM : 0 ≤ M) (hN : 0 ≤ N) (ha : LimbsWithin M a)
    (hb : LimbsWithin N b) : LimbsWithin (M + N) (addPoly a b) := by
  induction a, b using addPoly.induct with
  | case1 => simpa only [addPoly] using hb.mono (by omega)
  | case2 a => cases a <;> simpa only [addPoly] using ha.mono (by omega)
  | case3 x a y _ ih =>
    obtain ⟨hx, ha⟩ := limbsWithin_cons.mp ha
    obtain ⟨hy, hb⟩ := limbsWithin_cons.mp hb
    exact limbsWithin_cons.mpr ⟨by omega, ih ha hb⟩

theorem limbsWithin_map_mul {B M k : Int} {l : List Int} (hk : -B ≤ k ∧ k ≤ B) (h : LimbsWithin M l) :
    LimbsWithin (B * M) (l.map (k * ·)) := by
  intro y hy
  obtain ⟨x, hx, rfl⟩ := List.mem_map.mp hy
  rw [← abs_le, abs_mul]
  have hk := abs_le.mpr hk
  exact mul_le_mul hk (abs_le.mpr (h x hx)) (abs_nonneg x) ((abs_nonneg k).trans hk)

/-- A coefficient of the schoolbook product is a sum of at most one product for each limb of the first operand. -/
theorem limbsWithin_mulPoly {B M : Int} {a b : List Int} (hBM : 0 ≤ B * M) (ha : LimbsWithin B a)
    (hb : LimbsWithin M b) : LimbsWithin (a.length * (B * M)) (mulPoly a b) := by
  induction a with
  | nil => exact fun x hx => absurd hx List.not_mem_nil
  | cons x a ih =>
    obtain ⟨hx, ha⟩ := limbsWithin_cons.mp ha
    have bound : 0 ≤ a.length * (B * M) := mul_nonneg (Int.natCast_nonneg _) hBM
    have rest : LimbsWithin (a.length * (B * M)) (0 :: mulPoly a b) := limbsWithin_cons.mpr ⟨by omega, ih ha⟩
    have sum := limbsWithin_addPoly hBM bound (limbsWithin_map_mul hx hb) rest
    rwa [List.length_cons, Nat.cast_succ, add_one_mul, add_comm]

theorem limbsWithin_foldTop {M : Int} {t : List Int} (hM : 0 ≤ M) (h : LimbsWithin M t) :
    LimbsWithin (39 * M) (foldTop t) := by
  have low : LimbsWithin M (t.take 16) := fun x hx => h x (List.mem_of_mem_take hx)
  have high : LimbsWithin M (t.drop 16) := fun x hx => h x (List.mem_of_mem_drop hx)
  exact (limbsWithin_addPoly hM (by omega) low (limbsWithin_map_mul (B := 38) (by decide) high)).mono (by omega)

theorem LimbsWithin.limbValue_range {M : Int} {l : List Int} {n : Nat} (h : LimbsWithin M l) (len : l.length = n) :
    -(M * 2 ^ (16 * n) - M) ≤ limbValue l ∧ limbValue l ≤ M * 2 ^ (16 * n) - M := by
  subst len
  induction l with
  | nil => simp [limbValue]
  | cons x l ih =>
    obtain ⟨hx, hl⟩ := limbsWithin_cons.mp h
    have := ih hl
    rw [List.length_cons, Nat.mul_succ, pow_add, ← mul_assoc, limbValue]
    omega

/-- The coefficients of a product of limbs of magnitude at most `B`, before and after the fold (R131, R136). -/
theorem limbsWithin_product {B : Int} {a b : List Int} (ha : boundedLimbs B a) (hb : boundedLimbs B b) :
    LimbsWithin (16 * (B * B)) (mulPoly a b) ∧ LimbsWithin (39 * (16 * (B * B))) (foldTop (mulPoly a b)) := by
  have square := mul_self_nonneg B
  have product := limbsWithin_mulPoly square ha.2 hb.2
  rw [ha.1] at product
  exact ⟨product, limbsWithin_foldTop (by omega) product⟩

/-- The first pass leaves digits but for limb 0, which is far below `2^256`, so that the second reduces the limbs. -/
theorem mulL_reduced {a b : List Int} (ha : boundedLimbs (2 ^ 18) a) (hb : boundedLimbs (2 ^ 18) b) :
    reducedLimbs (mulL a b) := by
  have len := (foldTop_mulPoly_length ha.1 hb.1).2
  have range := (limbsWithin_product ha hb).2.limbValue_range len
  have once := limbValue_carryL len
  refine carryL_reduced ((carryL_length _).trans len) ?_ ?_ <;> omega

/-- A limb of a limb-wise sum or difference comes from one limb of each operand. -/
theorem limbsWithin_zipWith {M N : Int} {f : Int → Int → Int} {a b : List Int} (ha : LimbsWithin M a)
    (hb : LimbsWithin M b) (hf : ∀ x y, -M ≤ x ∧ x ≤ M → -M ≤ y ∧ y ≤ M → -N ≤ f x y ∧ f x y ≤ N) :
    LimbsWithin N (List.zipWith f a b) := by
  intro z hz
  obtain ⟨i, hi, rfl⟩ := List.getElem_of_mem hz
  rw [List.getElem_zipWith]
  exact hf _ _ (ha _ (List.getElem_mem _)) (hb _ (List.getElem_mem _))

theorem limbsWithin_of_reducedLimbs {l : List Int} (h : reducedLimbs l) : LimbsWithin (2 ^ 17) l := by
  obtain ⟨x, l, rfl, -, hx, hl⟩ := exists_cons_of_reducedLimbs h
  refine limbsWithin_cons.mpr ⟨by omega, fun y hy => ?_⟩
  have := hl y hy
  omega

theorem boundedLimbs_of_reducedLimbs {l : List Int} (h : reducedLimbs l) : boundedLimbs (2 ^ 18) l :=
  ⟨h.1, (limbsWithin_of_reducedLimbs h).mono (by decide)⟩

theorem boundedLimbs_addL {a b : List Int} (ha : reducedLimbs a) (hb : reducedLimbs b) :
    boundedLimbs (2 ^ 18) (addL a b) :=
  ⟨by rw [addL_length, ha.1, hb.1, min_self],
    limbsWithin_zipWith (limbsWithin_of_reducedLimbs ha) (limbsWithin_of_reducedLimbs hb) (by omega)⟩

theorem boundedLimbs_subL {a b : List Int} (ha : reducedLimbs a) (hb : reducedLimbs b) :
    boundedLimbs (2 ^ 18) (subL a b) :=
  ⟨by rw [subL_length, ha.1, hb.1, min_self],
    limbsWithin_zipWith (limbsWithin_of_reducedLimbs ha) (limbsWithin_of_reducedLimbs hb) (by omega)⟩

/-- Settles O52: `16 * B^2` bounds a coefficient of the product, `39 * 16 * B^2` one after the fold. -/
theorem accumulatorsStayInSixtyFourBits : Obligations.AccumulatorsStayInSixtyFourBits := by
  refine ⟨fun a b ha hb => ⟨fun x hx => ?_, mulL_reduced ha hb⟩, fun a b ha hb x hx => ?_,
    fun a b ha hb => ⟨boundedLimbs_addL ha hb, boundedLimbs_subL ha hb⟩⟩
  · obtain ⟨before, after⟩ := limbsWithin_product ha hb
    obtain hx | hx := List.mem_append.mp hx
    · have := before x hx
      omega
    · have := after x hx
      omega
  · have := (limbsWithin_product ha hb).2 x hx
    omega

end Sys2Proof.Machine
end

section
/-! SUPPORT. From words to limbs and back: unpacking, the masked selection, the exchange and packing. -/

namespace Sys2Proof.Machine
open Sys2Proof.Claims

/-! ## Unpacking -/

/-- The lowest `k` digits of radix `2^16` of a number. -/
def lowDigits (n k : Nat) : List Int := (List.range k).map fun i => ((n / 2 ^ (16 * i) % 2 ^ 16 : Nat) : Int)

theorem limbValue_lowDigits (n k : Nat) : limbValue (lowDigits n k) = (n % 2 ^ (16 * k) : Nat) := by
  induction k with
  | zero => simp [lowDigits, limbValue, Nat.mod_one]
  | succ k ih =>
    rw [lowDigits] at ih ⊢
    rw [List.range_succ, List.map_append, limbValue_append, ih, Nat.mul_succ, pow_add, Nat.mod_mul]
    simp [limbValue]

theorem lowDigits_digits (n k : Nat) : Digits (lowDigits n k) := by
  intro x hx
  obtain ⟨i, -, rfl⟩ := List.mem_map.mp hx
  omega

/-- `unpack_L` gives 15 digits and the 15 bits above them (R127). -/
theorem unpackL_eq (w : XWord) :
    unpackL w = lowDigits w.toNat 15 ++ [((w.toNat / 2 ^ 240 % 2 ^ 15 : Nat) : Int)] := by
  have limb : ∀ i len, (w.extractLsb' (16 * i) len).toNat = w.toNat / 2 ^ (16 * i) % 2 ^ len := fun i len => by
    rw [BitVec.extractLsb'_toNat, Nat.shiftRight_eq_div_pow]
  simp only [unpackL, lowDigits, limb, List.range_succ (n := 15), List.map_append]
  have below : ∀ i ∈ List.range 15, i ≠ 15 := fun i hi => (List.mem_range.mp hi).ne
  refine congrArg₂ (· ++ ·) (List.map_congr_left fun i hi => ?_) rfl
  rw [if_neg (below i hi)]

theorem unpackL_length (w : XWord) : (unpackL w).length = 16 := by simp [unpackL]

theorem unpackL_digits (w : XWord) : Digits (unpackL w) := by
  rw [unpackL_eq]
  intro x hx
  obtain hx | hx := List.mem_append.mp hx
  · exact lowDigits_digits _ _ x hx
  · obtain rfl := List.mem_singleton.mp hx
    omega

theorem limbValue_unpackL (w : XWord) : limbValue (unpackL w) = val w := by
  rw [unpackL_eq, limbValue_append, limbValue_lowDigits, val_eq, show 2 ^ 255 = 2 ^ 240 * 2 ^ 15 from rfl, Nat.mod_mul]
  simp [limbValue, lowDigits]

/-- Settles O50: the limbs are the word's digits up to bit 254. -/
theorem unpackedLimbsHaveTheValue : Obligations.UnpackedLimbsHaveTheValue := by
  intro w
  have reduced := reducedLimbs_of_digits (unpackL_digits w) (unpackL_length w)
  refine ⟨by rw [limbValue_unpackL, val_eq], reduced, unpackL_digits w, fun i hi => ?_, by simp [unpackL]⟩
  have below : i < 16 := by omega
  simp [unpackL, List.getElem?_range below, hi.ne]

/-! ## Selecting by a mask -/

/-- Every limb lies in the signed 64-bit range. -/
def Fits64 (l : List Int) : Prop := ∀ x ∈ l, -(2 ^ 63) ≤ x ∧ x < 2 ^ 63

theorem Digits.fits64 {l : List Int} (h : Digits l) : Fits64 l := by
  intro x hx
  have := h x hx
  omega

theorem fits64_of_reducedLimbs {l : List Int} (h : reducedLimbs l) : Fits64 l := by
  intro x hx
  have := limbsWithin_of_reducedLimbs h x hx
  omega

/-- An integer in the signed 64-bit range comes back from its 64-bit pattern. -/
theorem toInt_ofInt64 {x : Int} (h : -(2 ^ 63) ≤ x ∧ x < 2 ^ 63) : (BitVec.ofInt 64 x).toInt = x :=
  BitVec.toInt_ofInt_eq_self (by decide) h.1 h.2

/-- The mask `0 - bit` selects the second integer for the bit 1 and the first for 0 (R133, R135). -/
theorem select64_mask (bit : Bool) {t m : Int} (ht : -(2 ^ 63) ≤ t ∧ t < 2 ^ 63) (hm : -(2 ^ 63) ≤ m ∧ m < 2 ^ 63) :
    select64 (0 - (if bit then 1 else 0)) t m = if bit then m else t := by
  cases bit with
  | false => simp [select64, toInt_ofInt64 ht]
  | true =>
    have ones : BitVec.ofInt 64 (0 - 1) = BitVec.allOnes 64 := by decide
    simp only [select64, if_pos, ones, BitVec.allOnes_and, ← BitVec.xor_assoc, BitVec.xor_self, BitVec.zero_xor,
      toInt_ofInt64 hm]

theorem zipWith_select64 (bit : Bool) {a b : List Int} (len : a.length = b.length) (ha : Fits64 a) (hb : Fits64 b) :
    List.zipWith (select64 (0 - (if bit then 1 else 0))) a b = if bit then b else a := by
  refine List.ext_getElem (by cases bit <;> simp [len]) fun i hi _ => ?_
  rw [List.length_zipWith, lt_min_iff] at hi
  rw [List.getElem_zipWith, select64_mask bit (ha _ (List.getElem_mem hi.1)) (hb _ (List.getElem_mem hi.2))]
  cases bit <;> rfl

theorem cswapL_eq (bit : Bool) {a b : List Int} (len : a.length = b.length) (ha : Fits64 a) (hb : Fits64 b) :
    cswapL bit a b = if bit then (b, a) else (a, b) := by
  rw [cswapL, zipWith_select64 bit len ha hb, zipWith_select64 bit len.symm hb ha]
  cases bit <;> rfl

/-- Settles O53: the mask selects the other vector's limbs for the bit 1, and each vector's own for 0. -/
theorem maskedExchangeIsExact : Obligations.MaskedExchangeIsExact := fun bit a b len h =>
  cswapL_eq bit len (fun x hx => h x (List.mem_append_left b hx)) (fun x hx => h x (List.mem_append_right a hx))

/-! ## Packing -/

theorem subBorrow_length {t q : List Int} (b : Int) (h : t.length = q.length) :
    (subBorrow b t q).1.length = t.length := by
  induction t generalizing b q with
  | nil => rfl
  | cons x t ih =>
    obtain ⟨y, q, rfl⟩ := List.exists_cons_of_length_eq_add_one h.symm
    simp only [subBorrow, List.length_cons, ih _ (Nat.succ.inj h)]

/-- What is borrowed at the top is all that the difference of the limbs lacks (R133). -/
theorem limbValue_subBorrow {t q : List Int} (b : Int) (h : t.length = q.length) :
    limbValue (subBorrow b t q).1 =
      limbValue t - limbValue q - b + 2 ^ (16 * t.length) * (subBorrow b t q).2 := by
  induction t generalizing b q with
  | nil =>
    obtain rfl := List.length_eq_zero_iff.mp h.symm
    simp [subBorrow, limbValue]
  | cons x t ih =>
    obtain ⟨y, q, rfl⟩ := List.exists_cons_of_length_eq_add_one h.symm
    simp only [subBorrow, limbValue, ih _ (Nat.succ.inj h), List.length_cons, Nat.mul_succ, pow_add]
    ring

/-- The difference of digits is made of digits, with a borrow of 0 or 1 (R133). -/
theorem subBorrow_digits {t q : List Int} {b : Int} (h : t.length = q.length) (ht : Digits t) (hq : Digits q)
    (hb : b = 0 ∨ b = 1) :
    Digits (subBorrow b t q).1 ∧ ((subBorrow b t q).2 = 0 ∨ (subBorrow b t q).2 = 1) := by
  induction t generalizing b q with
  | nil =>
    obtain rfl := List.length_eq_zero_iff.mp h.symm
    exact ⟨ht, hb⟩
  | cons x t ih =>
    obtain ⟨y, q, rfl⟩ := List.exists_cons_of_length_eq_add_one h.symm
    obtain ⟨hx, ht⟩ := digits_cons.mp ht
    obtain ⟨hy, hq⟩ := digits_cons.mp hq
    obtain ⟨digits, borrow⟩ := ih (b := (x - y - b) / 2 ^ 16 % 2) (Nat.succ.inj h) ht hq (by omega)
    exact ⟨digits_cons.mpr ⟨by omega, digits⟩, borrow⟩

theorem primeLimbs_digits : Digits primeLimbs := by unfold Digits; decide

theorem limbValue_primeLimbs : limbValue primeLimbs = prime := by decide

/-- The masked subtraction takes `p` away once where the value is at least `p` (R133). -/
theorem subtractPrime_spec {t : List Int} (h : Digits t) (len : t.length = 16) :
    Digits (subtractPrime t) ∧ (subtractPrime t).length = 16 ∧
    limbValue (subtractPrime t) = if limbValue t < prime then limbValue t else limbValue t - prime := by
  have len' : t.length = primeLimbs.length := len
  obtain ⟨digits, borrow⟩ := subBorrow_digits (b := 0) len' h primeLimbs_digits (.inl rfl)
  have value := limbValue_subBorrow 0 len'
  have lenDiff := subBorrow_length 0 len'
  have range := h.limbValue_range len
  have rangeDiff := digits.limbValue_range (lenDiff.trans len)
  rw [limbValue_primeLimbs, len] at value
  obtain none | borrowed := borrow
  · have subtracted : subtractPrime t = (subBorrow 0 t primeLimbs).1 := by
      rw [subtractPrime, none]
      exact zipWith_select64 true lenDiff.symm h.fits64 digits.fits64
    rw [subtracted, if_neg (by omega)]
    exact ⟨digits, lenDiff.trans len, by omega⟩
  · have kept : subtractPrime t = t := by
      rw [subtractPrime, borrowed]
      exact zipWith_select64 false lenDiff.symm h.fits64 digits.fits64
    rw [kept, if_pos (by omega)]
    exact ⟨h, len, rfl⟩

/-- The bytes of digits, two of each, spell their value (R133). -/
theorem leNat_flatMap_bytes {l : List Int} (h : Digits l) :
    (leNat (l.flatMap fun x => [BitVec.ofInt 8 x, BitVec.ofInt 8 (x / 256)]) : Int) = limbValue l := by
  induction l with
  | nil => rfl
  | cons x l ih =>
    obtain ⟨hx, hl⟩ := digits_cons.mp h
    have := ih hl
    simp only [List.flatMap_cons, List.cons_append, List.nil_append, leNat, BitVec.toNat_ofInt, limbValue]
    push_cast
    omega

theorem canon_congr {v w : Int} (h : v ≡ w [ZMOD prime]) : canon v = canon w := congrArg Int.toNat h

/-- After the carry passes the digits' value is below `2p + 38`, so that two subtractions of `p` leave the residue. -/
theorem packed_digits {l : List Int} (h : reducedLimbs l) :
    Digits (subtractPrime (subtractPrime (carryL l))) ∧ (subtractPrime (subtractPrime (carryL l))).length = 16 ∧
    limbValue (subtractPrime (subtractPrime (carryL l))) = canon (limbValue l) := by
  have len := (carryL_length l).trans h.1
  have range := (carryL_digits h).limbValue_range len
  have residue := (limbValue_carryL_modEq h.1).symm
  obtain ⟨digits₁, len₁, value₁⟩ := subtractPrime_spec (carryL_digits h) len
  obtain ⟨digits₂, len₂, value₂⟩ := subtractPrime_spec digits₁ len₁
  refine ⟨digits₂, len₂, ?_⟩
  rw [canon_congr residue, canon_cast, value₂, value₁]
  rw [show (prime : Int) = 2 ^ 255 - 19 from rfl]
  split_ifs <;> omega

theorem packL_eq {l : List Int} (h : reducedLimbs l) : packL l =
    (subtractPrime (subtractPrime (carryL l))).flatMap fun x => [BitVec.ofInt 8 x, BitVec.ofInt 8 (x / 256)] := by
  have digits := carryL_digits h
  rw [packL, digits.carryL_eq, digits.carryL_eq]

theorem xwordOfBytes_packL {l : List Int} (h : reducedLimbs l) :
    xwordOfBytes (packL l) = enc (canon (limbValue l)) := by
  obtain ⟨digits, -, value⟩ := packed_digits h
  have bytes := leNat_flatMap_bytes digits
  rw [packL_eq h, xwordOfBytes, enc, Int.natCast_inj.mp (bytes.trans value)]

/-- Settles O54: the packed digits have the canonical value, and give two bytes each. -/
theorem packIsTheCanonicalEncoding : Obligations.PackIsTheCanonicalEncoding := by
  intro l h
  obtain ⟨-, len, -⟩ := packed_digits h
  refine ⟨?_, xwordOfBytes_packL h⟩
  rw [packL_eq h, List.length_flatMap]
  simp [len]

end Sys2Proof.Machine
end

section
/-! SUPPORT. Limb vectors that stand for an integer modulo `p`, and the datapath's sequences on them. -/

namespace Sys2Proof.Machine
open Sys2Proof.Claims

/-! ## Limbs that stand for an integer -/

/-- Sixteen limbs with the value `v` modulo `p`. -/
structure LimbsOf (l : List Int) (v : Int) : Prop where
  length : l.length = 16
  residue : limbValue l ≡ v [ZMOD prime]

/-- A multiplier input (R136): limbs small enough to be multiplied, with the value `v` modulo `p`. -/
structure MultiplierInput (l : List Int) (v : Int) : Prop where
  bounded : boundedLimbs (2 ^ 18) l
  residue : limbValue l ≡ v [ZMOD prime]

/-- A stored vector (R128): reduced limbs with the value `v` modulo `p`. -/
structure StoredLimbs (l : List Int) (v : Int) : Prop where
  reduced : reducedLimbs l
  residue : limbValue l ≡ v [ZMOD prime]

theorem LimbsOf.mul {a b : List Int} {v w : Int} (ha : LimbsOf a v) (hb : LimbsOf b w) : LimbsOf (mulL a b) (v * w) :=
  ⟨mulL_length ha.length hb.length,
    (limbValue_mulL_modEq ha.length hb.length).trans (ha.residue.mul hb.residue)⟩

theorem StoredLimbs.input {l : List Int} {v : Int} (h : StoredLimbs l v) : MultiplierInput l v :=
  ⟨boundedLimbs_of_reducedLimbs h.reduced, h.residue⟩

theorem MultiplierInput.mul {a b : List Int} {v w : Int} (ha : MultiplierInput a v) (hb : MultiplierInput b w) :
    StoredLimbs (mulL a b) (v * w) :=
  ⟨mulL_reduced ha.bounded hb.bounded,
    (limbValue_mulL_modEq ha.bounded.1 hb.bounded.1).trans (ha.residue.mul hb.residue)⟩

theorem StoredLimbs.add {a b : List Int} {v w : Int} (ha : StoredLimbs a v) (hb : StoredLimbs b w) :
    MultiplierInput (addL a b) (v + w) :=
  ⟨boundedLimbs_addL ha.reduced hb.reduced,
    limbValue_addL (ha.reduced.1.trans hb.reduced.1.symm) ▸ ha.residue.add hb.residue⟩

theorem StoredLimbs.sub {a b : List Int} {v w : Int} (ha : StoredLimbs a v) (hb : StoredLimbs b w) :
    MultiplierInput (subL a b) (v - w) :=
  ⟨boundedLimbs_subL ha.reduced hb.reduced,
    limbValue_subL (ha.reduced.1.trans hb.reduced.1.symm) ▸ ha.residue.sub hb.residue⟩

theorem StoredLimbs.congr {l : List Int} {v w : Int} (h : StoredLimbs l v) (e : v ≡ w [ZMOD prime]) :
    StoredLimbs l w :=
  ⟨h.reduced, h.residue.trans e⟩

/-- The ladder stores its values taken modulo `p` (R160). -/
theorem StoredLimbs.mod {l : List Int} {v : Int} (h : StoredLimbs l v) : StoredLimbs l (v % prime) :=
  h.congr (Int.mod_modEq v prime).symm

theorem StoredLimbs.canonical {l : List Int} {v : Int} (h : StoredLimbs l v) : StoredLimbs l (canon v) :=
  canon_cast v ▸ h.mod

theorem StoredLimbs.mul {a b : List Int} {v w : Int} (ha : StoredLimbs a v) (hb : StoredLimbs b w) :
    StoredLimbs (mulL a b) (v * w) :=
  ha.input.mul hb.input

theorem cswapL_of_stored {a b : List Int} {v w : Int} (bit : Bool) (ha : StoredLimbs a v) (hb : StoredLimbs b w) :
    cswapL bit a b = if bit then (b, a) else (a, b) :=
  cswapL_eq bit (ha.reduced.1.trans hb.reduced.1.symm) (fits64_of_reducedLimbs ha.reduced)
    (fits64_of_reducedLimbs hb.reduced)

theorem StoredLimbs.pack {l : List Int} {v : Int} (h : StoredLimbs l v) :
    xwordOfBytes (packL l) = enc (canon v) := by
  rw [xwordOfBytes_packL h.reduced, canon_congr h.residue]

theorem unpackL_stored (w : XWord) : StoredLimbs (unpackL w) (val w) :=
  ⟨reducedLimbs_of_digits (unpackL_digits w) (unpackL_length w), limbValue_unpackL w ▸ Int.ModEq.refl _⟩

theorem smallL_stored {a b : Int} (ha : 0 ≤ a ∧ a < 2 ^ 16) (hb : 0 ≤ b ∧ b < 2 ^ 16) :
    StoredLimbs (smallL a b) (a + 2 ^ 16 * b) := by
  have zeros : Digits (List.replicate 14 0) := by unfold Digits; decide
  have value : limbValue (smallL a b) = a + 2 ^ 16 * b := by
    simp only [smallL, limbValue, show limbValue (List.replicate 14 0) = 0 from by decide]
    ring
  exact ⟨reducedLimbs_of_digits (digits_cons.mpr ⟨ha, digits_cons.mpr ⟨hb, zeros⟩⟩) rfl, value ▸ Int.ModEq.refl _⟩

/-- Settles O56: the words' limbs, multiplied or not, are packed to the canonical word. -/
theorem datapathComputesFmulAndFred : Obligations.DatapathComputesFmulAndFred := fun a b =>
  ⟨((unpackL_stored a).mul (unpackL_stored b)).pack, (unpackL_stored a).pack⟩

/-! ## The inversion chain -/

/-- The running value of the inversion: square for each bit, multiply by `z` where the bit is 1 (R134). -/
def limbChain (z : List Int) (bits : List Bool) (c : List Int) : List Int :=
  bits.foldl (fun c bit => if bit then mulL (sqrL c) z else sqrL c) c

/-- The chain's operations compute `limbChain` of `z2` in `inv`, and write nothing else. -/
theorem runLimbOps_chainOps (s : XWord) (bits : List Bool) (st : Storage) :
    runLimbOps s (chainOps bits) st = { st with inv := limbChain st.z2 bits st.inv } := by
  induction bits generalizing st with
  | nil => rfl
  | cons bit bits ih =>
    rw [chainOps, List.flatMap_cons, ← chainOps, runLimbOps_append, ih]
    cases bit <;> rfl

theorem runLimbOps_inverseOps (s : XWord) (st : Storage) :
    runLimbOps s inverseOps st = { st with inv := limbChain st.z2 fermatBits st.z2 } := by
  rw [inverseOps, runLimbOps_cons, runLimbOps_chainOps]
  rfl

/-- A relation of limbs to integers that `mul_L` keeps holds between the chain and the power its bits spell. -/
theorem limbChain_pow {R : List Int → Int → Prop}
    (mul : ∀ {a b v w}, R a v → R b w → R (mulL a b) (v * w)) {z c : List Int} {v : Int} {e : Nat} (bits : List Bool)
    (hz : R z v) (hc : R c (v ^ e)) : R (limbChain z bits c) (v ^ chainExponent e bits) := by
  induction bits generalizing c e with
  | nil => exact hc
  | cons bit bits ih =>
    have square : R (sqrL c) (v ^ (2 * e)) := by
      rw [two_mul, pow_add]
      exact mul hc hc
    refine ih (e := 2 * e + bit.toNat) ?_
    cases bit with
    | false => exact square
    | true =>
      rw [Bool.toNat_true, pow_succ]
      exact mul square hz

/-- The whole chain computes the Fermat power (R134). -/
theorem limbChain_fermatBits {R : List Int → Int → Prop}
    (mul : ∀ {a b v w}, R a v → R b w → R (mulL a b) (v * w)) {z : List Int} {v : Int} (hz : R z v) :
    R (limbChain z fermatBits z) (v ^ (prime - 2)) := by
  rw [← chainExponent_fermatBits]
  exact limbChain_pow mul fermatBits hz ((pow_one v).symm ▸ hz)

theorem inverseL_eq (a : List Int) : inverseL a = limbChain a fermatBits a := by
  rw [inverseL, runLimbOps_inverseOps]

/-- Settles O55: sixteen limbs of any size are kept by `mul_L`, and the chain's bits spell `p - 2`. -/
theorem limbInverseIsTheFermatPower : Obligations.LimbInverseIsTheFermatPower := by
  intro a ha
  have power := limbChain_fermatBits LimbsOf.mul (⟨ha, Int.ModEq.refl _⟩ : LimbsOf a (limbValue a))
  rw [inverseL_eq]
  exact power.residue

/-- The inverse at the interface is the same power (R134). -/
theorem fermatInverse_eq (a : Nat) : fermatInverse a = a ^ (prime - 2) % prime := by
  have power := chain_is_power a 1 fermatBits
  rw [chainExponent_fermatBits, pow_one] at power
  exact power

/-! ## The ladder -/

/-- The storage stands for the ladder's state: each slot that the loop carries on is a stored vector with the value
of its integer, and the flags agree. -/
structure StandsFor (st : Storage) (x1 : Int) (L : LadderState) : Prop where
  x1 : StoredLimbs st.x1 x1
  x2 : StoredLimbs st.x2 L.x2
  z2 : StoredLimbs st.z2 L.z2
  x3 : StoredLimbs st.x3 L.x3
  z3 : StoredLimbs st.z3 L.z3
  a24 : StoredLimbs st.a24 121665
  swap : st.swap = L.swap

/-- The two exchanges of the running pairs (R163). -/
def exchangeOps : List LimbOp := [.cswap .x2 .x3, .cswap .z2 .z3]

/-- The operations of an iteration after the exchanges: one differential addition and doubling (R163). -/
def arithmeticOps : List LimbOp :=
  [.add .a .x2 .z2, .sub .b .x2 .z2, .add .c .x3 .z3, .sub .d .x3 .z3,
   .sqr .aa .a, .sqr .bb .b, .sub .e .aa .bb, .mul .da .d .a, .mul .cb .c .b,
   .add .tmp .da .cb, .sqr .x3 .tmp, .sub .tmp .da .cb, .sqr .tmp .tmp, .mul .z3 .x1 .tmp,
   .mul .x2 .aa .bb, .mul .tmp .e .a24, .add .tmp .tmp .aa, .mul .z2 .e .tmp]

theorem iterationOps_eq (t : Nat) :
    iterationOps t = .flagXor t :: (exchangeOps ++ .flagSet t :: arithmeticOps) := rfl

section ladder
variable {st : Storage} {x1 : Int} {L : LadderState}

theorem StandsFor.exchange (h : StandsFor st x1 L) (s : XWord) :
    StandsFor (runLimbOps s exchangeOps st) x1 (swapPairs L.swap L) := by
  have run : runLimbOps s exchangeOps st = { st with
      x2 := (cswapL st.swap st.x2 st.x3).1, x3 := (cswapL st.swap st.x2 st.x3).2
      z2 := (cswapL st.swap st.z2 st.z3).1, z3 := (cswapL st.swap st.z2 st.z3).2 } := rfl
  rw [run, cswapL_of_stored _ h.x2 h.x3, cswapL_of_stored _ h.z2 h.z3, h.swap]
  cases hs : L.swap with
  | false => exact { h with swap := hs.symm }
  | true => exact ⟨h.x1, h.x3, h.z3, h.x2, h.z2, h.a24, hs.symm⟩

theorem StandsFor.arithmetic (h : StandsFor st x1 L) (s : XWord) :
    StandsFor (runLimbOps s arithmeticOps st) x1 (ladderArith x1 L) := by
  have A := h.x2.add h.z2
  have B := h.x2.sub h.z2
  have C := h.x3.add h.z3
  have D := h.x3.sub h.z3
  have AA := A.mul A
  have BB := B.mul B
  have E := AA.sub BB
  have DA := D.mul A
  have CB := C.mul B
  have sum := DA.add CB
  have difference := DA.sub CB
  have z3 := h.x1.input.mul (difference.mul difference).input
  have z2 := E.mul ((E.mul h.a24.input).add AA)
  simp only [runLimbOps, arithmeticOps, List.foldl_cons, List.foldl_nil, runLimbOp, Storage.get, Storage.set]
  have formula (E AA : Int) : E * (E * 121665 + AA) = E * (AA + 121665 * E) := by ring
  refine ⟨h.x1, (AA.input.mul BB.input).mod, (z2.congr ?_).mod, (sum.mul sum).mod, (z3.congr ?_).mod, h.a24, h.swap⟩
  · rw [formula]
  · rw [← mul_assoc]

theorem StandsFor.setSwap (h : StandsFor st x1 L) (bit : Bool) :
    StandsFor { st with swap := bit } x1 { L with swap := bit } :=
  { h with swap := rfl }

/-- `swap ^= s[t]`, the exchanges, `swap = s[t]`, then the arithmetic (R163) is one iteration of R160. -/
theorem StandsFor.iteration (h : StandsFor st x1 L) (s : XWord) (t : Nat) :
    StandsFor (runLimbOps s (iterationOps t) st) x1 (ladderIteration x1 (s.getLsbD t) L) := by
  rw [iterationOps_eq, runLimbOps_cons, runLimbOps_append, runLimbOps_cons]
  have flagged : StandsFor (runLimbOp s st (.flagXor t)) x1 { L with swap := L.swap ^^ s.getLsbD t } :=
    h.swap ▸ h.setSwap (st.swap ^^ s.getLsbD t)
  have exchanged := ((flagged.exchange s).setSwap (s.getLsbD t)).arithmetic s
  have same : ladderArith x1 { swapPairs (L.swap ^^ s.getLsbD t) { L with swap := L.swap ^^ s.getLsbD t } with
      swap := s.getLsbD t } = ladderIteration x1 (s.getLsbD t) L := by
    unfold ladderIteration swapPairs
    cases L.swap ^^ s.getLsbD t <;> rfl
  exact same ▸ exchanged

theorem StandsFor.loop (h : StandsFor st x1 L) (s : XWord) (n : Nat) :
    StandsFor (runLimbOps s (loopOps n) st) x1 (ladderLoop x1 s n L) := by
  induction n generalizing st L with
  | zero => exact h
  | succ t ih =>
    rw [loopOps, runLimbOps_append]
    exact ih (h.iteration s t)

end ladder

/-- The storage before the loop holds the ladder's first pairs and the constant `A24` (R163). -/
theorem initStorage_standsFor (u : XWord) :
    StandsFor (initStorage u) (val u % prime) (ladderInit (val u % prime)) := by
  have point := (unpackL_stored u).mod
  have zero : StoredLimbs (smallL 0 0) 0 := smallL_stored (by decide) (by decide)
  have one : StoredLimbs (smallL 1 0) 1 := smallL_stored (by decide) (by decide)
  have a24 : StoredLimbs (smallL 0xDB41 1) 121665 := smallL_stored (by decide) (by decide)
  exact ⟨point, one, zero, point, one, a24, rfl⟩

/-- The ladder's state after the final exchange, before `canon` (R160). -/
def ladderResult (s u : XWord) : LadderState :=
  swapPairs (ladderLoop (val u % prime) s 255 (ladderInit (val u % prime))).swap
    (ladderLoop (val u % prime) s 255 (ladderInit (val u % prime)))

theorem ladder_eq (s u : XWord) : ladder s u = (canon (ladderResult s u).x2, canon (ladderResult s u).z2) := rfl

theorem runLimbOps_ladderOps_standsFor (s u : XWord) :
    StandsFor (runLimbOps s ladderOps (initStorage u)) (val u % prime) (ladderResult s u) := by
  rw [ladderOps, runLimbOps_append]
  exact ((initStorage_standsFor u).loop s 255).exchange s

/-- Settles O57: every iteration keeps the storage and the ladder's state in step, and packing reads off the pair. -/
theorem datapathComputesTheLadder : Obligations.DatapathComputesTheLadder := by
  intro s u
  have final := runLimbOps_ladderOps_standsFor s u
  rw [datapathLadder, final.x2.pack, final.z2.pack, ladder_eq]

/-! ## The scalar multiplication -/

theorem runLimbOps_product (s : XWord) (st : Storage) :
    (runLimbOps s [.mul .tmp .x2 .inv] st).tmp = mulL st.x2 st.inv := rfl

/-- After the ladder, `SMUL` multiplies X by the chain's power of Z (R165). -/
theorem runLimbOps_smulOps (s : XWord) (st : Storage) :
    (runLimbOps s smulOps st).tmp = mulL (runLimbOps s ladderOps st).x2
      (limbChain (runLimbOps s ladderOps st).z2 fermatBits (runLimbOps s ladderOps st).z2) := by
  rw [smulOps, runLimbOps_append, runLimbOps_append, runLimbOps_product, runLimbOps_inverseOps]

/-- The chain on limbs is the inverse at the interface (R134). -/
theorem limbChain_stored {z : List Int} {n : Nat} (h : StoredLimbs z n) :
    StoredLimbs (limbChain z fermatBits z) (fermatInverse n) := by
  have power := (limbChain_fermatBits StoredLimbs.mul h).mod
  rw [fermatInverse_eq, Int.natCast_mod, Nat.cast_pow]
  exact power

/-- Settles O58: X times the chain's power of Z, on limbs as on integers. -/
theorem datapathComputesSmul : Obligations.DatapathComputesSmul := by
  intro s u
  have final := runLimbOps_ladderOps_standsFor (clamp s) u
  rw [datapathSmul, runLimbOps_smulOps, scalarMultiply, ladder_eq]
  exact (final.x2.canonical.mul (limbChain_stored final.z2.canonical)).pack

/-! ## Operation counts -/

theorem opCounts_cons (op : LimbOp) (ops : List LimbOp) : opCounts (op :: ops) = opCounts [op] + opCounts ops := by
  cases op <;> simp [opCounts, Prod.ext_iff, add_comm]

theorem opCounts_append (l r : List LimbOp) : opCounts (l ++ r) = opCounts l + opCounts r := by
  induction l with
  | nil => exact (zero_add _).symm
  | cons op l ih => rw [List.cons_append, opCounts_cons, ih, opCounts_cons op l, add_assoc]

/-- An iteration has 2 exchanges, 4 additions, 4 subtractions, 4 squarings and 6 multiplications (R163). -/
theorem opCounts_loopOps (n : Nat) : opCounts (loopOps n) = (2 * n, 4 * n, 4 * n, 4 * n, 6 * n) := by
  induction n with
  | zero => rfl
  | succ t ih =>
    have iteration : opCounts (iterationOps t) = (2, 4, 4, 4, 6) := rfl
    rw [loopOps, opCounts_append, ih, iteration]
    simp only [Prod.mk_add_mk, Nat.mul_succ, add_comm]

/-- A chain squares once for each bit and multiplies once for each bit 1 (R134). -/
theorem opCounts_chainOps (bits : List Bool) : opCounts (chainOps bits) = (0, 0, 0, bits.length, bits.count true) := by
  induction bits with
  | nil => rfl
  | cons bit bits ih =>
    rw [chainOps, List.flatMap_cons, ← chainOps, opCounts_append, ih]
    cases bit <;> simp [opCounts, add_comm]

/-- Settles O59: 255 iterations and the final exchanges, and a chain of 254 bits of which 252 are 1. -/
theorem operationCountsAreFixed : Obligations.OperationCountsAreFixed := by
  have ladder : opCounts ladderOps = (512, 1020, 1020, 1020, 1530) := by
    rw [ladderOps, opCounts_append, opCounts_loopOps]
    rfl
  have inverse : opCounts inverseOps = (0, 0, 0, 254, 252) := by
    rw [inverseOps, opCounts_cons, opCounts_chainOps, show fermatBits.length = 254 from by simp [fermatBits],
      show fermatBits.count true = 252 from by decide +kernel]
    rfl
  refine ⟨ladder, inverse, ?_⟩
  rw [smulOps, opCounts_append, opCounts_append, ladder, inverse]
  rfl

end Sys2Proof.Machine
end

section
/-! SUPPORT. The ladder on every scalar and u-coordinate: which bits it reads, its degenerate inputs, and the two
commands that run it. -/

namespace Sys2Proof.Machine
open Sys2Proof.Claims

/-! ## The two commands -/

/-- Settles O42: the two writes of `LADDER` are the encoded residues, committed in list order. -/
theorem ladderWritesTheProjectivePair : Obligations.LadderWritesTheProjectivePair := by
  intro s rd rs1 rs2 rs3 hready different
  have wf : (Instr.ladder rd rs1 rs2 rs3).wellFormed = true := by simpa [Instr.wellFormed] using different
  exact ⟨_, _, enc_canon_toNat _, enc_canon_toNat _, exec_accepted_then_completed wf hready rfl⟩

/-- The result of `SMUL` as a power of Z (R165). -/
theorem scalarMultiply_eq (s u : XWord) :
    scalarMultiply s u = (ladder (clamp s) u).1 * (ladder (clamp s) u).2 ^ (prime - 2) % prime := by
  rw [scalarMultiply, fermatInverse_eq, ← Int.natCast_mul, canon_natCast, Nat.mul_mod_mod]

/-- Settles O43: the one write of `SMUL` is the encoded scalar multiple. -/
theorem smulWritesTheScalarMultiple : Obligations.SmulWritesTheScalarMultiple := by
  intro s rd rs1 rs2 hready
  refine ⟨_, ?_, exec_accepted_then_completed (i := .smul rd rs1 rs2) rfl hready rfl⟩
  rw [← scalarMultiply_eq]
  exact enc_canon_toNat _

/-! ## Clamped scalars -/

/-- Clamping keeps bits 253 to 3, sets bit 254 and clears the others (R180). -/
theorem clamp_getLsbD (w : XWord) {k : Nat} (hk : k < 256) :
    (clamp w).getLsbD k = if 3 ≤ k ∧ k ≤ 253 then w.getLsbD k else decide (k = 254) := by
  have cleared : ∀ k : Fin 256, (~~~(BitVec.ofNat 256 (2 ^ 255) ||| 7)).getLsbD k.val =
      decide (3 ≤ k.val ∧ k.val ≤ 254) := by decide +kernel
  have top : ∀ k : Fin 256, (BitVec.ofNat 256 (2 ^ 254)).getLsbD k.val = decide (k.val = 254) := by decide +kernel
  rw [clamp, BitVec.getLsbD_or, BitVec.getLsbD_and, cleared ⟨k, hk⟩, top ⟨k, hk⟩]
  by_cases kept : 3 ≤ k ∧ k ≤ 253
  · simp [kept, show k ≤ 254 by omega, show k ≠ 254 by omega]
  · by_cases h : k = 254
    · simp [h]
    · simp [kept, h, show ¬(3 ≤ k ∧ k ≤ 254) by omega]

theorem clamp_congr {s s' : XWord} (agree : ∀ k, 3 ≤ k → k ≤ 253 → s.getLsbD k = s'.getLsbD k) :
    clamp s = clamp s' := by
  apply BitVec.eq_of_getLsbD_eq
  intro k hk
  rw [clamp_getLsbD s hk, clamp_getLsbD s' hk]
  split_ifs with kept
  · exact agree k kept.1 kept.2
  · rfl

@[simp] theorem clamp_clamp (w : XWord) : clamp (clamp w) = clamp w :=
  clamp_congr fun k low high => by rw [clamp_getLsbD w (by omega), if_pos ⟨low, high⟩]

/-- Settles O47: such scalars have one clamped copy, which is its own. -/
theorem smulIgnoresTheClampedBits : Obligations.SmulIgnoresTheClampedBits := by
  intro s s' u agree
  simp only [scalarMultiply, clamp_clamp, clamp_congr agree, and_self]

/-! ## What the ladder reads -/

/-- The fixed input point is the residue of bits 254:0 (R162). -/
theorem val_mod_prime (u : XWord) :
    (val u : Int) % (prime : Int) = ((u.toNat % 2 ^ 255) % (2 ^ 255 - 19) : Nat) := by
  rw [val_eq, ← Int.natCast_mod, prime]

theorem ladderLoop_congr (x1 : Int) {s s' : XWord} (n : Nat) (st : LadderState)
    (agree : ∀ k < n, s.getLsbD k = s'.getLsbD k) : ladderLoop x1 s n st = ladderLoop x1 s' n st := by
  induction n generalizing st with
  | zero => rfl
  | succ t ih =>
    rw [ladderLoop, ladderLoop, agree t (Nat.lt_succ_self t)]
    exact ih _ fun k hk => agree k (Nat.lt_succ_of_lt hk)

/-- Settles O48: the loop reads bits 254 to 0 of the scalar and nothing of `u` but its residue. -/
theorem ladderReadsItsOperandsModuloP : Obligations.LadderReadsItsOperandsModuloP := by
  intro s s' u u' bits residues
  have point : (val u : Int) % (prime : Int) = val u' % prime := by rw [val_mod_prime, val_mod_prime, residues]
  have result : ladderResult s u = ladderResult s' u' := by
    rw [ladderResult, ladderResult, point, ladderLoop_congr _ 255 _ bits]
  rw [ladder_eq, ladder_eq, result]

/-! ## A zero scalar -/

/-- Pair 2 is the identity and no exchange is pending. -/
structure AtIdentity (st : LadderState) : Prop where
  x2 : st.x2 = 1
  z2 : st.z2 = 0
  swap : st.swap = false

theorem swapPairs_false (st : LadderState) : swapPairs false st = st := rfl

/-- Without an exchange the identity is doubled, which gives the identity. -/
theorem AtIdentity.iteration {st : LadderState} (h : AtIdentity st) (x1 : Int) :
    AtIdentity (ladderIteration x1 false st) := by
  rw [ladderIteration, h.swap, Bool.false_xor, swapPairs_false]
  refine ⟨?_, ?_, rfl⟩
  · simp only [ladderArith, h.x2, h.z2]
    decide
  · simp only [ladderArith, h.x2, h.z2]
    decide

theorem AtIdentity.loop {st : LadderState} (h : AtIdentity st) (x1 : Int) {s : XWord} (n : Nat)
    (zero : ∀ k < n, s.getLsbD k = false) : AtIdentity (ladderLoop x1 s n st) := by
  induction n generalizing st with
  | zero => exact h
  | succ t ih =>
    rw [ladderLoop, zero t (Nat.lt_succ_self t)]
    exact ih (h.iteration x1) fun k hk => zero k (Nat.lt_succ_of_lt hk)

theorem getLsbD_of_mod_eq_zero {s : XWord} {n : Nat} (h : s.toNat % 2 ^ n = 0) : ∀ k < n, s.getLsbD k = false := by
  intro k hk
  have bit : (s.toNat % 2 ^ n).testBit k = false := by rw [h, Nat.zero_testBit]
  rwa [Nat.testBit_mod_two_pow, decide_eq_true hk, Bool.true_and, BitVec.testBit_toNat] at bit

theorem ladder_of_zero_scalar {s : XWord} (u : XWord) (h : s.toNat % 2 ^ 255 = 0) : ladder s u = (1, 0) := by
  have start : AtIdentity (ladderInit (val u % prime)) := ⟨rfl, rfl, rfl⟩
  obtain ⟨x2, z2, swap⟩ := start.loop (val u % prime) 255 (getLsbD_of_mod_eq_zero h)
  have result : ladderResult s u = ladderLoop (val u % prime) s 255 (ladderInit (val u % prime)) := by
    rw [ladderResult, swap, swapPairs_false]
  rw [ladder_eq, result, x2, z2]
  decide

/-! ## A zero u-coordinate -/

/-- From two pairs that each have a zero coordinate, and the input point 0, both new Z are 0: doubling gives a multiple
of `E = 4 * X2 * Z2`, and the addition a multiple of the input point. -/
theorem ladderIteration_zero_point (bit : Bool) {st : LadderState} (pair2 : st.x2 * st.z2 = 0)
    (pair3 : st.x3 * st.z3 = 0) :
    (ladderIteration 0 bit st).z2 = 0 ∧ (ladderIteration 0 bit st).z3 = 0 := by
  have doubled : (swapPairs (st.swap ^^ bit) st).x2 * (swapPairs (st.swap ^^ bit) st).z2 = 0 := by
    cases st.swap ^^ bit with
    | false => exact pair2
    | true => exact pair3
  have difference (X Z : Int) : (X + Z) * (X + Z) - (X - Z) * (X - Z) = 4 * (X * Z) := by ring
  constructor
  · simp only [ladderIteration, ladderArith, difference, doubled, mul_zero, zero_mul, Int.zero_emod]
  · simp only [ladderIteration, ladderArith, zero_mul, Int.zero_emod]

theorem ladderLoop_zero_point (s : XWord) (n : Nat) {st : LadderState} (z2 : st.z2 = 0) (z3 : st.z3 = 0) :
    (ladderLoop 0 s n st).z2 = 0 ∧ (ladderLoop 0 s n st).z3 = 0 := by
  induction n generalizing st with
  | zero => exact ⟨z2, z3⟩
  | succ t ih =>
    obtain ⟨z2', z3'⟩ := ladderIteration_zero_point (s.getLsbD t) (mul_eq_zero_of_right st.x2 z2)
      (mul_eq_zero_of_right st.x3 z3)
    exact ih z2' z3'

/-- The first of the 255 iterations makes both Z zero, whichever pair the last exchange then leaves in place 2. -/
theorem ladder_of_zero_point (s : XWord) {u : XWord} (h : (u.toNat % 2 ^ 255) % (2 ^ 255 - 19) = 0) :
    (ladder s u).2 = 0 := by
  have point : (val u : Int) % (prime : Int) = 0 := by rw [val_mod_prime, h, Nat.cast_zero]
  obtain ⟨first2, first3⟩ := ladderIteration_zero_point (s.getLsbD 254) (st := ladderInit 0) rfl rfl
  obtain ⟨z2, z3⟩ := ladderLoop_zero_point s 254 first2 first3
  have result : (ladderResult s u).z2 = 0 := by
    rw [ladderResult, point, ladderLoop]
    cases (ladderLoop 0 s 254 (ladderIteration 0 (s.getLsbD 254) (ladderInit 0))).swap with
    | false => exact z2
    | true => exact z3
  rw [ladder_eq, result]
  rfl

/-- Settles O49: a zero scalar leaves the identity, and a zero point gives `Z = 0`, whose power is 0. -/
theorem degenerateLadderInputsHaveTheirResults : Obligations.DegenerateLadderInputsHaveTheirResults := by
  intro s u
  refine ⟨ladder_of_zero_scalar u, fun h => ⟨ladder_of_zero_point s h, ?_⟩⟩
  have exponent : prime - 2 ≠ 0 := by decide
  rw [scalarMultiply_eq, ladder_of_zero_point (clamp s) h, zero_pow exponent, mul_zero, Nat.zero_mod]

end Sys2Proof.Machine
end

section
/-! SUPPORT. `CLAMP`, and the shape of a clamped scalar. -/

namespace Sys2Proof.Machine
open Sys2Proof.Claims

/-- Settles O41: the one write is the clamped copy, whose bits R180 gives. -/
theorem clampWritesTheClampedCopy : Obligations.ClampWritesTheClampedCopy := by
  intro s rd rs1 hready
  refine ⟨clamp (readX s.block.x rs1), ?_, exec_accepted_then_completed (i := .clamp rd rs1) rfl hready rfl⟩
  intro k hk
  rw [clamp_getLsbD _ hk]
  by_cases kept : 3 ≤ k ∧ k ≤ 253
  · rw [if_pos kept, if_neg (by omega), if_neg (by omega)]
  · rw [if_neg kept]
    by_cases top : k = 254
    · rw [if_neg (by omega), if_pos top, decide_eq_true top]
    · rw [if_pos (by omega), decide_eq_false top]

/-- Bit 254 of a clamped scalar is set. -/
theorem two_pow_254_le_clamp_toNat (w : XWord) : 2 ^ 254 ≤ (clamp w).toNat :=
  Nat.ge_two_pow_of_testBit (clamp_getLsbD w (by decide))

/-- Bit 255 of a clamped scalar is clear. -/
theorem clamp_toNat_lt (w : XWord) : (clamp w).toNat < 2 ^ 255 := by
  have cleared : (clamp w).msb = false := clamp_getLsbD w (by decide)
  exact BitVec.toNat_lt_of_msb_false cleared

/-- Bits 2 to 0 of a clamped scalar are clear. -/
theorem clamp_toNat_mod_eight (w : XWord) : (clamp w).toNat % 8 = 0 := by
  change (clamp w).toNat % 2 ^ 3 = 0
  apply Nat.zero_of_testBit_eq_false
  intro k
  rw [Nat.testBit_mod_two_pow]
  by_cases low : k < 3
  · have cleared : (clamp w).getLsbD k = false := by
      rw [clamp_getLsbD w (by omega), if_neg (by omega), decide_eq_false (by omega)]
    rw [BitVec.testBit_toNat, cleared, Bool.and_false]
  · rw [decide_eq_false low, Bool.false_and]

/-- Settles O46: the range and the divisor are bits 255, 254 and 2 to 0, the other bits are the word's. -/
theorem clampedScalarsHaveTheirShape : Obligations.ClampedScalarsHaveTheirShape := fun w =>
  ⟨two_pow_254_le_clamp_toNat w, clamp_toNat_lt w, clamp_toNat_mod_eight w,
    fun k low high => by rw [clamp_getLsbD w (by omega), if_pos ⟨low, high⟩], clamp_clamp w⟩

end Sys2Proof.Machine
end

section
/-! SUPPORT. What is turned away: the checks of a command in the order of R213, accesses of another size or alignment,
operand writes while busy, and the error record they leave. -/

namespace Sys2Proof.Machine
open Sys2Proof.Claims

/-! ## Every step is answered -/

/-- Settles O8: the event a step takes, the completion where none waits, is answered by a next state. -/
theorem stepNeverStops : Obligations.StepNeverStops := by
  intro s
  unfold step
  split
  · exact ⟨_, rfl⟩
  · obtain ⟨b, d, answer⟩ := deliver_next _ _
    exact ⟨_, answer⟩

/-! ## The error record -/

theorem raiseError_eq_rejectedWith (c : ErrorCode) (info : Word) (b : Block) :
    raiseError c info b = rejectedWith (errorBits c) info b := rfl

/-- Raising an error touches the error record only (R202, R210). -/
theorem raiseError_frame (c : ErrorCode) (info : Word) (b : Block) :
    raiseError c info b = { b with
      err := (raiseError c info b).err, errCode := (raiseError c info b).errCode,
      errInfo := (raiseError c info b).errInfo, dropped := (raiseError c info b).dropped } := by
  cases err : b.err with
  | true => rw [raiseError_of_error c info b err]
  | false => rw [raiseError_of_noError c info b err]

/-- A dropped command word leaves what a second error leaves (R202, R209). -/
theorem dropCommand_eq_raiseError (c : ErrorCode) (info : Word) {b : Block} (h : b.err = true) :
    dropCommand b = raiseError c info b :=
  (raiseError_of_error c info b h).symm

/-! ## The checks of a command -/

/-- `exec` checks `ERR` and `BUSY` first for every command, well-formed or not (R205, R209). -/
theorem exec_issueChecks (i : Instr) (s : State) :
    ∃ passed, exec i s = .next { s with block := issueChecks (encode i) s.block passed } := by
  cases wf : i.wellFormed with
  | true => exact ⟨_, exec_of_wellFormed i s wf⟩
  | false => exact ⟨_, exec_of_illFormed i s wf⟩

theorem writeCommand_of_reject {w : Word} {c : ErrorCode} (s : State) (h : decodeWord w = .reject c) :
    writeCommand w s = .next (rejectWord c w s) := by
  simp [writeCommand, h]

/-- Every word written to `CMD`, legal or not, goes through the checks of `ERR` and `BUSY` (R213 steps 2 and 3). -/
theorem hostWrite_issueChecks (w : Word) (s : State) :
    ∃ passed, hostWrite 0x000 w s = .next { s with block := issueChecks w s.block passed } := by
  rw [hostWrite_command]
  cases decoded : decodeWord w with
  | reject c => exact ⟨_, writeCommand_of_reject s decoded⟩
  | command i =>
    rw [writeCommand_of_command s decoded, ← encode_of_decodeWord decoded]
    exact exec_issueChecks i s

/-- A word that decoding rejects, in a ready block, is recorded under decoding's code (R213 steps 4 to 6). -/
theorem hostWrite_of_reject {w : Word} {c : ErrorCode} {s : State} (isReady : ready s.block)
    (h : decodeWord w = .reject c) : hostWrite 0x000 w s =
      .next { s with block := { s.block with err := true, errCode := errorBits c, errInfo := w } } := by
  rw [hostWrite_command, writeCommand_of_reject s h, rejectWord, issueChecks_of_ready _ _ _ isReady.1 isReady.2,
    raiseError_of_noError c w s.block isReady.1]

/-- A word whose `OP` names an opcode but that lies outside the opcode's row (R204). -/
theorem decodeWord_of_outside_row {w : Word} {op : Opcode} (ho : opField w = op.code)
    (outside : w &&& op.maskWord ≠ op.matchWord) : decodeWord w = .reject .reservedField :=
  decodeWord_eq_reject_iff.mpr (.inr ⟨op, by rw [ho, opcodeOf?_code], .inl ⟨outside, rfl⟩⟩)

/-- Settles O15: the checks of `ERR` and `BUSY` come before all else. -/
theorem commandsAreTurnedAwayUnlessReady : Obligations.CommandsAreTurnedAwayUnlessReady := by
  intro s i
  obtain ⟨passed, checks⟩ := exec_issueChecks i s
  rw [checks]
  constructor
  · intro err
    rw [issueChecks_of_error _ _ _ err, dropCommand]
  · intro noError busy
    rw [issueChecks_of_busy _ _ _ noError busy, raiseError_of_noError _ _ _ noError, errorBits]

/-- Settles O16: the ill-formed term is rejected, and a ready block passes the checks before. -/
theorem ladderWithOneDestinationIsRejected : Obligations.LadderWithOneDestinationIsRejected := by
  rintro s rd rs1 rs2 ⟨noError, idle⟩
  have illFormed : (Instr.ladder rd rs1 rs2 rd).wellFormed = false := by simp [Instr.wellFormed]
  rw [exec_of_illFormed _ s illFormed, rejectWord, issueChecks_of_ready _ _ _ noError idle,
    raiseError_of_noError _ _ _ noError, errorBits]

/-! ## Size and alignment -/

/-- Settles O13: the access is not performed, and `BUS_ACCESS` is raised with its offset. -/
theorem badAccessIsRejected : Obligations.BadAccessIsRejected :=
  fun s off n v bad => accessWindow_rejected off n v s (decide_eq_false bad)

/-- Settles O9: size first, then `ERR` and `BUSY`, then decoding's three checks, then acceptance. -/
theorem commandWriteFollowsTheCheckOrder : Obligations.CommandWriteFollowsTheCheckOrder := by
  intro s
  refine ⟨?size, ?dropped, ?busy, ?illegalOpcode, ?reservedField, ?operandConflict, ?accepted⟩
  case size => exact fun n v size => (badAccessIsRejected s 0x000 n v fun performed => size performed.1).2
  case dropped =>
    intro w err
    obtain ⟨passed, checks⟩ := hostWrite_issueChecks w s
    rw [checks, issueChecks_of_error _ _ _ err, dropCommand]
  case busy =>
    intro w noError busy
    obtain ⟨passed, checks⟩ := hostWrite_issueChecks w s
    rw [checks, issueChecks_of_busy _ _ _ noError busy, raiseError_of_noError _ _ _ noError, errorBits]
  case illegalOpcode =>
    exact fun w noError idle illegal => hostWrite_of_reject ⟨noError, idle⟩
      (decodeWord_eq_illegalOpcode_iff.mpr (opcodeOf?_eq_none_iff.mpr illegal))
  case reservedField =>
    exact fun w op noError idle ho outside => hostWrite_of_reject ⟨noError, idle⟩
      (decodeWord_of_outside_row ho outside)
  case operandConflict =>
    exact fun w noError idle row equal => hostWrite_of_reject ⟨noError, idle⟩
      (decodeWord_eq_operandConflict_iff.mpr ⟨row, rdField_eq_rs3Field_iff.mpr equal⟩)
  case accepted =>
    intro w i noError idle decoded
    rw [stepRunsTheDecodedCommand s w i decoded,
      exec_of_ready i s (wellFormed_of_decodeWord decoded) noError idle, encode_of_decodeWord decoded, accept]

/-! ## The operand window while busy -/

/-- An operand write while busy raises `OPERAND_BUSY` and does nothing else (R206). -/
theorem writeRegister_operand_of_busy {off : Offset} (v : Word) {b : Block} (operand : isOperandOffset off = true)
    (busy : b.busy = true) : writeRegister off v b = raiseError .operandBusy (zext32 off) b := by
  have above := (isOperandOffset_iff.mp operand).1
  rw [writeRegister_above v b (by omega), if_pos operand, writeOperand, if_pos busy]

/-- Settles O14: the write is discarded by the check of `BUSY`, the read does not look at it. -/
theorem operandWritesWhileBusyAreDiscarded : Obligations.OperandWritesWhileBusyAreDiscarded := by
  intro s i j v busy
  refine ⟨?_, hostRead_operand i j s⟩
  rw [hostWrite_register _ v s (operandOffset_aligned i j) (operandOffset_ne_cmd i j),
    writeRegister_operand_of_busy v (isOperandOffset_operandOffset i j) busy, raiseError_eq_rejectedWith]
  rfl

/-! ## Precise errors -/

/-- `b'` is `b` with some error raised (R202). -/
def ErrorRaised (b b' : Block) : Prop := ∃ c info, b' = raiseError c info b

/-- The checks of `ERR` and `BUSY` raise an error, unless they are passed (R205, R209, R213). -/
theorem issueChecks_errorRaised (w : Word) {b passed : Block} (h : ready b → ErrorRaised b passed) :
    ErrorRaised b (issueChecks w b passed) := by
  obtain ⟨err, checks⟩ | ⟨-, -, checks⟩ | ⟨noError, idle, checks⟩ := issueChecks_cases w b passed <;> rw [checks]
  · exact ⟨.cmdBusy, w, dropCommand_eq_raiseError .cmdBusy w err⟩
  · exact ⟨.cmdBusy, w, rfl⟩
  · exact h ⟨noError, idle⟩

/-- Whatever is turned away raises an error, and does nothing else to the block (R210). -/
theorem errorRaised_of_turnedAway {off : Offset} {a : Access} {s t : State} (away : turnedAway off a s.block)
    (answer : accessWindow off a s = .next t) : ErrorRaised s.block t.block := by
  obtain ⟨n, rfl, size, aligned, -⟩ | ⟨n, -, -, rfl⟩ | ⟨n, v, -, -, rfl⟩ | ⟨w, rfl, rfl, command⟩ |
    ⟨w, rfl, notCmd, aligned, rfl⟩ := accessWindow_cases off a s t answer
  · exact absurd ⟨size, aligned⟩ away
  · exact ⟨.busAccess, zext32 off, rfl⟩
  · exact ⟨.busAccess, zext32 off, rfl⟩
  · obtain ⟨c, -, rfl⟩ | ⟨i, decoded, run⟩ := command
    · exact issueChecks_errorRaised w fun _ => ⟨c, w, rfl⟩
    · obtain ⟨passed, checks⟩ := exec_issueChecks i s
      obtain rfl := Host.Outcome.next.inj (checks.symm.trans run)
      refine issueChecks_errorRaised (encode i) fun ⟨noError, idle⟩ => absurd away ?_
      simp [turnedAway, noError, idle, decoded]
  · obtain bad | ⟨cmd, -⟩ | ⟨low, high, busy⟩ := away
    · exact absurd ⟨rfl, aligned⟩ bad
    · exact absurd cmd notCmd
    · exact ⟨.operandBusy, zext32 off, writeRegister_operand_of_busy w (isOperandOffset_iff.mpr ⟨low, high⟩) busy⟩

/-- Settles O11: raising an error is all that happens, and it leaves what R202 and R209 say. -/
theorem errorsArePrecise : Obligations.ErrorsArePrecise := by
  intro s t e off a access away answer
  have delivered : accessWindow off a s = .next t := (deliver_of_portAccess s access).symm.trans answer
  obtain ⟨c, info, raised⟩ := errorRaised_of_turnedAway away delivered
  rw [raised]
  refine ⟨raiseError_frame c info s.block, raiseError_err c info s.block, fun err => ?_, fun noError => ?_⟩
  · rw [raiseError_of_error c info s.block err]
    exact ⟨rfl, rfl, rfl⟩
  · rw [raiseError_of_noError c info s.block noError]

end Sys2Proof.Machine
end

section
/-! SUPPORT. Reset: the registers and the interrupt line of the block it leaves. -/

namespace Sys2Proof.Machine
open Sys2Proof.Claims

/-- Every operand register is 0 after reset (R51). -/
@[simp] theorem readX_reset (i : Reg) : readX Block.reset.x i = 0 := by
  simp [readX, Block.reset]

/-- Neither `DONE` nor `ERR` is set after reset, so the interrupt line is low (R48). -/
@[simp] theorem irq_reset : irq Block.reset = false := rfl

/-- Reset replaces the block, whatever is in flight, and leaves the events still to come and the data of the last read
as they are (R230). -/
theorem onEvent_reset (s : State) : onEvent .reset s = .next { s with block := Block.reset } := by
  rw [onEvent_eq, deliver]

/-- Settles O27: the block after a reset is `Block.reset`, whose registers are all 0 and whose interrupt line is low;
its other fields are read off its definition. -/
theorem resetClearsTheBlock : Obligations.ResetClearsTheBlock := by
  intro s
  refine ⟨{ s with block := Block.reset }, onEvent_reset s, rfl, rfl, readX_reset, ?fields⟩
  case fields => exact ⟨rfl, rfl, rfl, rfl, rfl, rfl, rfl, rfl, rfl, rfl, rfl, irq_reset⟩

end Sys2Proof.Machine
end
